-- ==== Sys2Proof/Word.lean ====
section
/-! DEFINITION. The widths of VP8PD's port fields and of its one register (spec/00_scope.md R7;
spec/10_state.md R20, R25 to R27). The block has no general word size. -/

namespace Sys2Proof

/-- A byte, bits 7 (most significant) down to 0 (R7). -/
abbrev Byte := BitVec 8

/-- A u16: a raw RTP sequence number (R61) or a picture ID (R27). -/
abbrev Half := BitVec 16

/-- A u32: an extended sequence number (R20, R25). -/
abbrev Word := BitVec 32

/-- The 4-bit command selector `op` (R60). -/
abbrev Op := BitVec 4

/-- A u3 length on the response port, 0 to 6 (R25). -/
abbrev Len3 := BitVec 3

end Sys2Proof
end

