-- ==== Sys2Proof/Config.lean ====
section
/-! DEFINITION. The implementation parameters of one VP8PD instance (spec/00_scope.md R5, spec/10_state.md
R23), and the values of the instance that the spec leaves OPEN, as constants without a body. -/

namespace Sys2Proof

/-- The parameters of R5 that an instance fixes. No command changes any of them (R5, R23).
`lenBits` and `latency` are read by no rule (92_eei_decisions.md D6, D32). -/
structure Config where
  /-- `STRICT`: reserved bits that are 1 make a decode fail (R76). -/
  strict : Bool
  /-- `LEN_BITS`: the width of the `dec_len` port. -/
  lenBits : Nat
  /-- `LATENCY`: the time from a command's issue to its response. -/
  latency : Nat
deriving DecidableEq, Repr

/-- `DEC_WIN` (R5): the longest descriptor, in bytes. -/
abbrev decWinBytes : Nat := 6

/-- `ENC_WIN` (R5): the longest descriptor, in bytes. -/
abbrev encWinBytes : Nat := 6

/-- `STRICT` of the instance that was built: OPEN (D7), so no proof may know it. -/
opaque builtStrict : Bool

/-- By how much the `dec_len` port of the built instance is wider than the least width 3 of R5: OPEN (D6). -/
opaque builtLenBitsAboveThree : Nat

/-- `LATENCY` of the built instance: OPEN (D32). -/
opaque builtLatency : Nat

/-- The parameters of the instance that was built: what `State.reset` carries. -/
def Config.built : Config :=
  { strict := builtStrict, lenBits := 3 + builtLenBitsAboveThree, latency := builtLatency }

/-- A hardware build fixes a `dec_len` port of at least 3 bits (R5). -/
def Config.wellFormed (c : Config) : Bool := decide (3 ≤ c.lenBits)

end Sys2Proof
end

