-- ==== Sys2Proof/Syntax.lean ====
section
/-! DEFINITION. The operands of VP8PD's commands, the command port's transaction and the instructions
(spec/10_state.md R26, R27, R29; spec/20_memory.md R40 to R43; spec/30_encoding.md R60 to R62). -/

namespace Sys2Proof

/-- A byte window, offsets 0 to 5: PD.DEC's `dec_win` (R41) or PD.ENC's `out` (R43). -/
abbrev Window := Vector Byte 6

/-- The window whose bytes are all 0 (the default of `out` in R25). -/
def Window.zero : Window := #v[0, 0, 0, 0, 0, 0]

/-- The Descriptor record with the source's field types (R27). A field not given is 0 or false, as R65 writes
Descriptors. -/
structure Descriptor where
  /-- X -/
  extendedControlBitsPresent : Bool := false
  /-- N -/
  nonReferenceFrame : Bool := false
  /-- S -/
  startOfPartition : Bool := false
  pid : Byte := 0
  /-- I -/
  pictureidPresent : Bool := false
  pictureId : Half := 0
  /-- L -/
  tl0picidxPresent : Bool := false
  tl0picidx : Byte := 0
  /-- T -/
  tidPresent : Bool := false
  tid : Byte := 0
  /-- Y -/
  layerSync : Bool := false
  /-- K -/
  keyidxPresent : Bool := false
  keyidx : Byte := 0
deriving DecidableEq, Repr

/-- The zero descriptor: every Bool false, every number 0 (R29). -/
def Descriptor.zero : Descriptor := {}

/-- One transaction on the command port: `op` and every operand field the port carries (R26, R60, R61).
A command uses the fields of its own format; the others are ignored (R26). `decLen` is an unbounded Nat (R5). -/
structure Command where
  op : Op
  decLen : Nat := 0
  decWin : Window := Window.zero
  encDesc : Descriptor := Descriptor.zero
  seqRaw : Half := 0
deriving DecidableEq, Repr

/-- The instructions, one per row of spec/opcode_table.json (R62), with the operands of their format (R61). -/
inductive Instr where
  /-- PD.DEC, format F_DEC -/
  | pdDec (decLen : Nat) (decWin : Window)
  /-- PD.ENC, format F_ENC -/
  | pdEnc (encDesc : Descriptor)
  /-- SEQ.NEXT, format F_SEQ -/
  | seqNext (seqRaw : Half)
  /-- SEQ.RESET, format F_NONE -/
  | seqReset
deriving DecidableEq, Repr

end Sys2Proof
end

