-- ==== Sys2Proof/WellFormed.lean ====
section
/-! DEFINITION. Well-formed Descriptors (spec/10_state.md R28) and the instructions a built command port can
carry (spec/00_scope.md R5, spec/30_encoding.md R61). -/

namespace Sys2Proof

/-- Clause 1 of R28. -/
def Descriptor.pidFits (d : Descriptor) : Bool := decide (d.pid ≤ 15)

/-- Clause 2 of R28: X is present exactly when some field is. -/
def Descriptor.flagsConsistent (d : Descriptor) : Bool :=
  d.extendedControlBitsPresent ==
    (d.pictureidPresent || d.tl0picidxPresent || d.tidPresent || d.keyidxPresent)

/-- Clause 3 of R28. -/
def Descriptor.pictureIdFits (d : Descriptor) : Bool :=
  if d.pictureidPresent then decide (d.pictureId ≤ 0x7FFF) else d.pictureId == 0

/-- Clause 4 of R28. -/
def Descriptor.tl0Fits (d : Descriptor) : Bool := d.tl0picidxPresent || d.tl0picidx == 0

/-- Clause 5 of R28. -/
def Descriptor.tidFits (d : Descriptor) : Bool :=
  if d.tidPresent then decide (d.tid ≤ 3) else d.tid == 0 && !d.layerSync

/-- Clause 6 of R28. -/
def Descriptor.keyidxFits (d : Descriptor) : Bool :=
  if d.keyidxPresent then decide (d.keyidx ≤ 31) else d.keyidx == 0

/-- Clauses 1, 3, 4, 5 and 6 of R28: what every decoded Descriptor satisfies (spec/40_descriptor_decode.md R111). -/
def Descriptor.fieldsFit (d : Descriptor) : Bool :=
  d.pidFits && d.pictureIdFits && d.tl0Fits && d.tidFits && d.keyidxFits

/-- `WF(d)` of R28. -/
def Descriptor.wellFormed (d : Descriptor) : Bool := d.fieldsFit && d.flagsConsistent

/-- The instruction's operands fit the command port of an instance with these parameters: `dec_len` is a
`LEN_BITS`-bit unsigned number (R61). Every other operand's type is its port width. The meanings do not ask for
this: the model takes `dec_len` as an unbounded Nat (R5). -/
def Instr.wellFormed (cfg : Config) : Instr → Bool
  | .pdDec decLen _ => decide (decLen < 2 ^ cfg.lenBits)
  | .pdEnc _ => true
  | .seqNext _ => true
  | .seqReset => true

end Sys2Proof
end

