-- ==== Sys2Proof/Decode.lean ====
section
/-! DEFINITION. The command decoder, total on every transaction of the command port, and the encoder
(spec/30_encoding.md R60 to R64, spec/opcode_table.json). -/

namespace Sys2Proof

/-- A row of the opcode map: which `op` values select it (R62). -/
structure OpcodeRow where
  mnemonic : String
  mask : Op
  value : Op
deriving DecidableEq, Repr

/-- PD.DEC's row of the opcode map (R62). -/
def OpcodeRow.pdDec : OpcodeRow := { mnemonic := "PD.DEC", mask := 0xF, value := 0x1 }

/-- PD.ENC's row of the opcode map (R62). -/
def OpcodeRow.pdEnc : OpcodeRow := { mnemonic := "PD.ENC", mask := 0xF, value := 0x2 }

/-- SEQ.NEXT's row of the opcode map (R62). -/
def OpcodeRow.seqNext : OpcodeRow := { mnemonic := "SEQ.NEXT", mask := 0xF, value := 0x3 }

/-- SEQ.RESET's row of the opcode map (R62). -/
def OpcodeRow.seqReset : OpcodeRow := { mnemonic := "SEQ.RESET", mask := 0xF, value := 0x4 }

/-- The opcode map of R62, in its order. -/
def opcodeTable : List OpcodeRow := [.pdDec, .pdEnc, .seqNext, .seqReset]

/-- The row matches `op`. -/
def OpcodeRow.selects (r : OpcodeRow) (op : Op) : Bool := (op &&& r.mask) == r.value

/-- Why a transaction is no instruction. -/
inductive DecodeError where
  /-- `op` is 0x0 or 0x5 to 0xF (R63): the step answers ILLEGAL_OP. -/
  | reservedOp (op : Op)
deriving DecidableEq, Repr

/-- The command decoder: `op` alone selects the instruction (R62), and each operand is read from its port field
as it stands (R64). -/
def decode (c : Command) : Except DecodeError Instr :=
  if OpcodeRow.pdDec.selects c.op then .ok (.pdDec c.decLen c.decWin)
  else if OpcodeRow.pdEnc.selects c.op then .ok (.pdEnc c.encDesc)
  else if OpcodeRow.seqNext.selects c.op then .ok (.seqNext c.seqRaw)
  else if OpcodeRow.seqReset.selects c.op then .ok .seqReset
  else .error (.reservedOp c.op)

/-- The instruction's row of the opcode map (R62). -/
def Instr.row : Instr → OpcodeRow
  | .pdDec _ _ => .pdDec
  | .pdEnc _ => .pdEnc
  | .seqNext _ => .seqNext
  | .seqReset => .seqReset

/-- The transaction that carries an instruction: its `op` (R62) and the operand fields of its format (R61).
The port fields its format does not use are driven to 0; nothing depends on them (R26). -/
def encode : Instr → Command
  | .pdDec decLen decWin => { op := OpcodeRow.pdDec.value, decLen := decLen, decWin := decWin }
  | .pdEnc encDesc => { op := OpcodeRow.pdEnc.value, encDesc := encDesc }
  | .seqNext seqRaw => { op := OpcodeRow.seqNext.value, seqRaw := seqRaw }
  | .seqReset => { op := OpcodeRow.seqReset.value }

/-- The transaction of the table word `w` of `nbits` bits: the table gives `op`, bits 3 to 0, and no bits to the
operands, which are therefore 0. DESIGN CHOICE (notes/assumptions/3.md): bits of the word above bit 3 belong to no
field and are ignored, as the table's mask 0xF says. -/
def Command.ofTableWord (nbits w : Nat) : Command := { op := BitVec.ofNat 4 (w % 2 ^ nbits) }

/-- What the decoder reads from a word numbered as spec/opcode_table.json numbers it. -/
def decodeTableWord (nbits w : Nat) : Option Instr :=
  match decode (Command.ofTableWord nbits w) with
  | .ok i => some i
  | .error _ => none

end Sys2Proof
end

