-- ==== Sys2Proof/Machine/State.lean ====
section
/-! DEFINITION. The state of one VP8PD instance and of its two ports, the response record, and the state after
reset (spec/10_state.md R20 to R26; spec/60_exceptions.md R201; spec/70_reset_and_hazards.md R240, R241). -/

namespace Sys2Proof.Machine

/-- The `status` field of a response (R25, R201). -/
inductive Status where
  | ok
  | invalidPayloadDescriptor
  | contractViolation
  | illegalOp
deriving DecidableEq, Repr

/-- The `reason` field of a response (R25, R201). -/
inductive Reason where
  | none
  | truncated
  | reservedBit
  | seqUnderflow
  | seqOverflow
  | fieldRange
deriving DecidableEq, Repr

/-- The response port (R25). A field that is not given has the value of R25's third column: the value it takes
when the command does not produce it, and on every error. -/
structure Response where
  status : Status
  reason : Reason := .none
  desc : Descriptor := Descriptor.zero
  consumed : Len3 := 0
  out : Window := Window.zero
  outLen : Len3 := 0
  ext : Word := 0
deriving DecidableEq, Repr

/-- No meaning of this model ends in a fault: VP8PD raises no trap, exception or interrupt (R200), and every error
is a status that a response returns (R11, R208). The type has no constructor, so nobody raises one. -/
inductive Fault where
deriving DecidableEq, Repr

/-- Why a step is refused. -/
inductive Refusal where
  /-- Raised by an arm of `exec` that has no meaning yet, with the row's mnemonic; safe (the machine stops where the
  hardware goes on). No arm of this model raises it. -/
  | notModelled (mnemonic : String)
deriving DecidableEq, Repr

/-- One instance with its ports and the commands that its host has still to issue.
`refCseq` and `initialized` are the architectural state (R20). `cfg` is the instance's configuration: every command
leaves it as it is (R5, R23). `inbox` belongs to the host agent (R24): the commands it will present, the next one
first, one at a time (R51). `resp` is the response port: what the last completed command answered, and no value
before the first (R241). -/
structure State where
  cfg : Config
  refCseq : Word
  initialized : Bool
  inbox : List Command
  resp : Option Response
deriving DecidableEq, Repr

/-- Power-on reset (R240, R241): the tracker is (0, false), the response port holds no value, and the host has
issued nothing. The configuration is the built instance's, whatever it is. -/
def State.reset : State :=
  { cfg := Config.built, refCseq := 0, initialized := false, inbox := [], resp := none }

end Sys2Proof.Machine
end

