-- ==== Sys2Proof/Machine/Ops.lean ====
section
/-! DEFINITION. The operations the meanings share: bits and exact integers (spec/00_scope.md R7, R8), the two byte
windows (R9; spec/20_memory.md R41, R43), the tracker and the response port (R10, R11; spec/10_state.md R25), and
taking the next command from the host (spec/20_memory.md R51). -/

namespace Sys2Proof.Machine

/-! ### Bits and integers -/

/-- `b[i]` (R7). -/
def bit {n : Nat} (b : BitVec n) (i : Nat) : Bool := b.getLsbD i

/-- `low16(x) = x mod 2^16` (R8). -/
def low16 (x : Word) : Int := (x.toNat : Int) % 65536

/-- `s16(v)`: `v mod 2^16` read as two's complement, in [-32768, 32767] (R8). -/
def s16 (v : Int) : Int :=
  let r := v % 65536
  if 32768 ≤ r then r - 65536 else r

/-! ### The byte windows -/

/-- `MemRead(i, 1)` on PD.DEC's input window: defined only for `i < min(dec_len, DEC_WIN)` (R9, R41). -/
def memRead (decLen : Nat) (win : Window) (i : Nat) : Option Byte :=
  if i < decLen then win[i]? else none

/-- A read behind its availability check (spec/40_descriptor_decode.md R105): a byte at or beyond `dec_len` raises
TRUNCATED without being read. -/
def readAvailable (decLen : Nat) (win : Window) (i : Nat) : Except Reason Byte :=
  match memRead decLen win i with
  | some b => .ok b
  | none => .error .truncated

/-- `MemWrite(i, 1, v)` on PD.ENC's output window, for `i < ENC_WIN` (R9, R43). -/
def memWrite (out : Window) (i : Nat) (v : Byte) : Window := out.setIfInBounds i v

/-- PD.ENC's output so far: the window, and the offset of the next byte. -/
abbrev OutCursor := Window × Nat

/-- Write the next byte of the output window. -/
def emit (v : Byte) (p : OutCursor) : OutCursor := (memWrite p.1 p.2 v, p.2 + 1)

/-! ### The tracker and the response port -/

/-- `st.ref_cseq <- r; st.initialized <- b` (R10). -/
def State.setTracker (s : State) (r : Word) (b : Bool) : State := { s with refCseq := r, initialized := b }

/-- The command ends and its response stands on the response port (R25). -/
def State.respond (s : State) (r : Response) : State := { s with resp := some r }

/-- `raise <status>(<reason>)` (R11): the block's only form of exception. The response has the status, the reason and
every data field at its default; no state write of the command is kept, no mode changes and no control is transferred
(R202, R208). -/
def State.raise (s : State) (status : Status) (reason : Reason) : State :=
  s.respond { status := status, reason := reason }

/-! ### The command port -/

/-- The host presents its next command (R24, R51). -/
def takeCommand (s : State) : Option (Command × State) :=
  match s.inbox with
  | [] => none
  | c :: rest => some (c, { s with inbox := rest })

/-- No command is presented: the block holds its state (spec/60_exceptions.md R215).
DESIGN CHOICE (notes/assumptions/2.md): this is a step that changes nothing. -/
def idle (s : State) : State := s

/-- A transaction that is no instruction (spec/30_encoding.md R63): ILLEGAL_OP(NONE), nothing else. -/
def rejectCommand (e : DecodeError) (s : State) : State :=
  match e with
  | .reservedOp _ => s.raise .illegalOp .none

/-- The host presents `c` next, before what it had still to issue. -/
def presentNext (s : State) (c : Command) : State := { s with inbox := c :: s.inbox }

end Sys2Proof.Machine
end

