-- ==== Sys2Proof/Machine/Operands.lean ====
section
/-! DEFINITION. The payload-descriptor wire format (spec/30_encoding.md R70 to R79): how each byte is unpacked into a
Descriptor's fields and packed from them, and the layout as a whole (presence, offsets, length). -/

namespace Sys2Proof.Machine

/-! ### Unpacking one byte -/

/-- Byte 0 (R70, R79): X, N, S and PID. The reserved bit 6 is not reported. -/
def unpackByte0 (b0 : Byte) : Descriptor :=
  { extendedControlBitsPresent := bit b0 7
    nonReferenceFrame := bit b0 5
    startOfPartition := bit b0 4
    pid := (b0.extractLsb 3 0).setWidth 8 }

/-- Byte 1, the extension byte (R71): I, L, T and K. -/
def unpackByte1 (d : Descriptor) (b1 : Byte) : Descriptor :=
  { d with
    pictureidPresent := bit b1 7
    tl0picidxPresent := bit b1 6
    tidPresent := bit b1 5
    keyidxPresent := bit b1 4 }

/-- The value bits of a picture-ID field's first byte, below M (R72). -/
def pictureIdBits (p0 : Byte) : BitVec 7 := p0.extractLsb 6 0

/-- The 1-byte picture ID, M = 0 (R72). -/
def pictureIdOf1 (p0 : Byte) : Half := (pictureIdBits p0).setWidth 16

/-- The 2-byte picture ID, M = 1, most significant bits first (R72; spec/20_memory.md R46). -/
def pictureIdOf2 (p0 p1 : Byte) : Half := (pictureIdBits p0 ++ p1).setWidth 16

/-- The TID and Y bits of the T/K byte, which carry meaning only when T = 1 (R74). -/
def unpackTid (d : Descriptor) (tk : Byte) : Descriptor :=
  if d.tidPresent then { d with tid := (tk.extractLsb 7 6).setWidth 8, layerSync := bit tk 5 } else d

/-- The KEYIDX bits of the T/K byte, which carry meaning only when K = 1 (R74). -/
def unpackKeyidx (d : Descriptor) (tk : Byte) : Descriptor :=
  if d.keyidxPresent then { d with keyidx := (tk.extractLsb 4 0).setWidth 8 } else d

/-! ### Packing one byte -/

/-- Four flags in bits 7 to 4 above a nibble: the shape of byte 0 and of byte 1. -/
def flagByte (b7 b6 b5 b4 : Bool) (low : BitVec 4) : Byte :=
  BitVec.ofBool b7 ++ BitVec.ofBool b6 ++ BitVec.ofBool b5 ++ BitVec.ofBool b4 ++ low

/-- M above seven value bits: the first byte of a picture-ID field (R72). -/
def pictureIdByte (m : Bool) (value : BitVec 7) : Byte := BitVec.ofBool m ++ value

/-- `{TID, Y, KEYIDX}`: the T/K byte (R74). -/
def tkByte (tid : BitVec 2) (y : Bool) (keyidx : BitVec 5) : Byte := tid ++ BitVec.ofBool y ++ keyidx

/-- X as a sender derives it (spec/41_descriptor_encode.md R132): the input's own X is not read. -/
def derivedX (d : Descriptor) : Bool :=
  d.pictureidPresent || d.tl0picidxPresent || d.tidPresent || d.keyidxPresent

/-- `{X, 0, N, S, PID}` (R133). -/
def packByte0 (d : Descriptor) : Byte :=
  flagByte (derivedX d) false d.nonReferenceFrame d.startOfPartition (d.pid.extractLsb 3 0)

/-- `{I, L, T, K, 0000}` (R134). -/
def packByte1 (d : Descriptor) : Byte :=
  flagByte d.pictureidPresent d.tl0picidxPresent d.tidPresent d.keyidxPresent 0

/-- `{0, picture_id[6:0]}` (R135). -/
def packPictureId1 (p : Half) : Byte := pictureIdByte false (p.extractLsb 6 0)

/-- `{1, picture_id[14:8]}`, the first byte of the 2-byte form (R135). -/
def packPictureIdHigh (p : Half) : Byte := pictureIdByte true (p.extractLsb 14 8)

/-- `picture_id[7:0]`, the second byte of the 2-byte form (R135). -/
def packPictureIdLow (p : Half) : Byte := p.extractLsb 7 0

/-- The T/K byte; a sub-field whose flag is 0 is written as 0 (R136). -/
def packTk (d : Descriptor) : Byte :=
  tkByte (if d.tidPresent then d.tid.extractLsb 1 0 else 0) (d.tidPresent && d.layerSync)
    (if d.keyidxPresent then d.keyidx.extractLsb 4 0 else 0)

/-! ### The bytes a sender emits, as one list -/

/-- The picture-ID field of R135: empty, 1 byte or 2 bytes. -/
def pictureIdBytes (d : Descriptor) : List Byte :=
  if d.pictureidPresent then
    if d.pictureId ≤ 127 then [packPictureId1 d.pictureId]
    else [packPictureIdHigh d.pictureId, packPictureIdLow d.pictureId]
  else []

/-- The TL0PICIDX field: empty or 1 byte (R73). -/
def tl0picidxBytes (d : Descriptor) : List Byte := if d.tl0picidxPresent then [d.tl0picidx] else []

/-- The T/K field: empty or 1 byte (R74, R136). -/
def tkBytes (d : Descriptor) : List Byte := if d.tidPresent || d.keyidxPresent then [packTk d] else []

/-- The minimal byte pattern of a Descriptor, in the field order of R75 (R133 to R136). -/
def descriptorBytes (d : Descriptor) : List Byte :=
  packByte0 d :: if derivedX d then packByte1 d :: (pictureIdBytes d ++ tl0picidxBytes d ++ tkBytes d) else []

/-- The first six bytes of a list as a window; a byte the list does not have is 0. -/
def windowOf (bytes : List Byte) : Window :=
  #v[bytes.getD 0 0, bytes.getD 1 0, bytes.getD 2 0, bytes.getD 3 0, bytes.getD 4 0, bytes.getD 5 0]

/-! ### The layout as a whole

The flags of a window as its own bytes spell them: a flag of the extension byte counts only where X = 1 (R71), and
M only where I = 1 (R72). -/

/-- X of a window's byte 0. -/
def wireX (w : Window) : Bool := w[0].getLsbD 7
/-- I of a window, 0 where X = 0. -/
def wireI (w : Window) : Bool := wireX w && w[1].getLsbD 7
/-- L of a window, 0 where X = 0. -/
def wireL (w : Window) : Bool := wireX w && w[1].getLsbD 6
/-- T of a window, 0 where X = 0. -/
def wireT (w : Window) : Bool := wireX w && w[1].getLsbD 5
/-- K of a window, 0 where X = 0. -/
def wireK (w : Window) : Bool := wireX w && w[1].getLsbD 4
/-- M of a window, 0 where I = 0. -/
def wireM (w : Window) : Bool := wireI w && w[2].getLsbD 7

/-- DescLen of R77, from the flags. -/
def descLen (x i m l t k : Bool) : Nat :=
  1 + x.toNat + x.toNat * i.toNat * (1 + m.toNat) + x.toNat * l.toNat + x.toNat * (t || k).toNat

/-- DescLen of the descriptor that a window's bytes spell. -/
def wireLen (w : Window) : Nat := descLen (wireX w) (wireI w) (wireM w) (wireL w) (wireT w) (wireK w)

/-- `w_picid` of R75. -/
def wirePictureIdWidth (w : Window) : Nat := (wireI w).toNat * (1 + (wireM w).toNat)

/-- `off_tl0` of R75. -/
def wireOffTl0 (w : Window) : Nat := 2 + wirePictureIdWidth w

/-- `off_tk` of R75. -/
def wireOffTk (w : Window) : Nat := 2 + wirePictureIdWidth w + (wireL w).toNat

/-- Byte `i` of a window, for an offset that is computed. -/
def byteAt (w : Window) (i : Nat) : Byte := w[i]?.getD 0

/-- The bits of the T/K byte that carry meaning under a window's flags (R74). -/
def wireTkMask (w : Window) : Byte :=
  (if wireT w then 0xE0 else 0) ||| (if wireK w then 0x1F else 0)

/-- The Descriptor that a window's bytes spell (R70 to R75), each field taken from its offset by masks and shifts; a
field whose flag is 0 is 0 (spec/40_descriptor_decode.md R108). -/
def wireDescriptor (w : Window) : Descriptor :=
  { extendedControlBitsPresent := wireX w
    nonReferenceFrame := w[0].getLsbD 5
    startOfPartition := w[0].getLsbD 4
    pid := w[0] &&& 0x0F
    pictureidPresent := wireI w
    pictureId :=
      if wireM w then ((w[2] &&& 0x7F).setWidth 16 <<< 8) ||| w[3].setWidth 16
      else if wireI w then (w[2] &&& 0x7F).setWidth 16
      else 0
    tl0picidxPresent := wireL w
    tl0picidx := if wireL w then byteAt w (wireOffTl0 w) else 0
    tidPresent := wireT w
    tid := if wireT w then byteAt w (wireOffTk w) >>> 6 else 0
    layerSync := wireT w && (byteAt w (wireOffTk w)).getLsbD 5
    keyidxPresent := wireK w
    keyidx := if wireK w then byteAt w (wireOffTk w) &&& 0x1F else 0 }

/-- A descriptor's bytes after the normalisations of spec/41_descriptor_encode.md R140: reserved bits cleared, absent
T/K sub-fields cleared, a 2-byte picture ID of 127 or less shortened, an extension byte with no field flag dropped. -/
def normalizedBytes (w : Window) : List Byte :=
  if wireI w || wireL w || wireT w || wireK w then
    [w[0] &&& 0xBF, w[1] &&& 0xF0] ++
      (if wireI w then
        if wireM w then
          if pictureIdOf2 w[2] w[3] ≤ 127 then [w[3] &&& 0x7F] else [w[2], w[3]]
        else [w[2]]
      else []) ++
      (if wireL w then [byteAt w (wireOffTl0 w)] else []) ++
      (if wireT w || wireK w then
        [byteAt w (wireOffTk w) &&& wireTkMask w] else [])
  else [w[0] &&& 0x3F]

end Sys2Proof.Machine
end

