-- ==== Sys2Proof/Machine/DescriptorDecode.lean ====
section
/-! DEFINITION. PD.DEC: decode a payload descriptor (spec/40_descriptor_decode.md R100 to R111). -/

namespace Sys2Proof.Machine

/-- The reserved-bit check of R106: only an instance with `STRICT = true` fails on a bit that is 1. -/
def checkReserved (strict : Bool) (nonZero : Bool) : Except Reason Unit :=
  if nonZero && strict then .error .reservedBit else .ok ()

/-- The picture ID at `off`, if I = 1 (R103); with the offset after it. -/
def decodePictureId (decLen : Nat) (win : Window) (d : Descriptor) (off : Nat) :
    Except Reason (Descriptor × Nat) :=
  if d.pictureidPresent then do
    let p0 ← readAvailable decLen win off
    if bit p0 7 then do
      let p1 ← readAvailable decLen win (off + 1)
      .ok ({ d with pictureId := pictureIdOf2 p0 p1 }, off + 2)
    else .ok ({ d with pictureId := pictureIdOf1 p0 }, off + 1)
  else .ok (d, off)

/-- TL0PICIDX at `off`, if L = 1 (R108); with the offset after it. -/
def decodeTl0picidx (decLen : Nat) (win : Window) (d : Descriptor) (off : Nat) :
    Except Reason (Descriptor × Nat) :=
  if d.tl0picidxPresent then do
    let b ← readAvailable decLen win off
    .ok ({ d with tl0picidx := b }, off + 1)
  else .ok (d, off)

/-- The T/K byte at `off`, if T = 1 or K = 1 (R108); with the offset after it. -/
def decodeTk (decLen : Nat) (win : Window) (d : Descriptor) (off : Nat) :
    Except Reason (Descriptor × Nat) :=
  if d.tidPresent || d.keyidxPresent then do
    let tk ← readAvailable decLen win off
    .ok (unpackKeyidx (unpackTid d tk) tk, off + 1)
  else .ok (d, off)

/-- The extension byte (R102) and the fields whose presence it gives, in the order I, L, T/K (R75). -/
def decodeExtension (strict : Bool) (decLen : Nat) (win : Window) (d : Descriptor) :
    Except Reason (Descriptor × Nat) := do
  let b1 ← readAvailable decLen win 1
  checkReserved strict (b1.extractLsb 3 0 != 0)
  let p ← decodePictureId decLen win (unpackByte1 d b1) 2
  let q ← decodeTl0picidx decLen win p.1 p.2
  decodeTk decLen win q.1 q.2

/-- The decoder of R100: the Descriptor and the number of bytes it occupies, or the reason of the failure. The first
failing check in byte order decides the reason (R107). -/
def decodeDescriptor (strict : Bool) (decLen : Nat) (win : Window) : Except Reason (Descriptor × Nat) := do
  let b0 ← readAvailable decLen win 0
  checkReserved strict (bit b0 6)
  let d := unpackByte0 b0
  if d.extendedControlBitsPresent then decodeExtension strict decLen win d else .ok (d, 1)

/-- PD.DEC (R100): no state is written; the response has the Descriptor and `consumed`, or
INVALID_PAYLOAD_DESCRIPTOR with the reason. -/
def execPdDec (decLen : Nat) (decWin : Window) (s : State) : Host.Outcome State Fault Refusal :=
  match decodeDescriptor s.cfg.strict decLen decWin with
  | .ok (d, n) => .next (s.respond { status := .ok, desc := d, consumed := BitVec.ofNat 3 n })
  | .error r => .next (s.raise .invalidPayloadDescriptor r)

end Sys2Proof.Machine
end

