-- ==== Sys2Proof/Machine/DescriptorEncode.lean ====
section
/-! DEFINITION. PD.ENC: encode a payload descriptor (spec/41_descriptor_encode.md R130 to R141). -/

namespace Sys2Proof.Machine

/-- A present field does not fit its wire width (R131). The values of absent fields do not matter (R137). -/
def fieldOutOfRange (d : Descriptor) : Bool :=
  decide (15 < d.pid) || (d.pictureidPresent && decide (0x7FFF < d.pictureId)) ||
    (d.tidPresent && decide (3 < d.tid)) || (d.keyidxPresent && decide (31 < d.keyidx))

/-- The picture ID, if I = 1, in the shortest form that holds it (R135). -/
def emitPictureId (d : Descriptor) (p : OutCursor) : OutCursor :=
  if d.pictureidPresent then
    if d.pictureId ≤ 127 then emit (packPictureId1 d.pictureId) p
    else emit (packPictureIdLow d.pictureId) (emit (packPictureIdHigh d.pictureId) p)
  else p

/-- TL0PICIDX, if L = 1 (R130). -/
def emitTl0picidx (d : Descriptor) (p : OutCursor) : OutCursor :=
  if d.tl0picidxPresent then emit d.tl0picidx p else p

/-- The T/K byte, if T = 1 or K = 1 (R136). -/
def emitTk (d : Descriptor) (p : OutCursor) : OutCursor :=
  if d.tidPresent || d.keyidxPresent then emit (packTk d) p else p

/-- The extension byte (R134) and the fields it announces, in the order I, L, T/K (R75), if the derived X is 1. -/
def emitExtension (d : Descriptor) (p : OutCursor) : OutCursor :=
  if derivedX d then emitTk d (emitTl0picidx d (emitPictureId d (emit (packByte1 d) p))) else p

/-- The encoder of R130: the output window, 0 past its end (spec/20_memory.md R43), and the number of its bytes; or
FIELD_RANGE before any byte is written. -/
def encodeDescriptor (d : Descriptor) : Except Reason OutCursor :=
  if fieldOutOfRange d then .error .fieldRange
  else .ok (emitExtension d (emit (packByte0 d) (Window.zero, 0)))

/-- PD.ENC (R130): no state is written; the response has the bytes and their number, or
CONTRACT_VIOLATION(FIELD_RANGE). -/
def execPdEnc (encDesc : Descriptor) (s : State) : Host.Outcome State Fault Refusal :=
  match encodeDescriptor encDesc with
  | .ok (out, n) => .next (s.respond { status := .ok, out := out, outLen := BitVec.ofNat 3 n })
  | .error r => .next (s.raise .contractViolation r)

end Sys2Proof.Machine
end

