-- ==== Sys2Proof/Machine/Flags.lean ====
section
/-! DEFINITION. VP8PD has no condition flags (spec/10_state.md R22). What reports a command's outcome is the `status`
and `reason` of its response; here are their numeric codes on the port (spec/60_exceptions.md R201). -/

namespace Sys2Proof.Machine

/-- The code of a status (R201). -/
def Status.code : Status → Nat
  | .ok => 0
  | .invalidPayloadDescriptor => 1
  | .contractViolation => 2
  | .illegalOp => 3

/-- The code of a reason (R201). -/
def Reason.code : Reason → Nat
  | .none => 0
  | .truncated => 1
  | .reservedBit => 2
  | .seqUnderflow => 3
  | .seqOverflow => 4
  | .fieldRange => 5

end Sys2Proof.Machine
end

