-- ==== Sys2Proof/Machine/SequenceTracker.lean ====
section
/-! DEFINITION. SEQ.NEXT and SEQ.RESET: the extended sequence number tracker (spec/42_sequence_tracker.md R160 to
R173). -/

namespace Sys2Proof.Machine

/-- `delta = s16(seq_raw - low16(ref_cseq))` (R162). -/
def seqDelta (ref : Word) (seqRaw : Half) : Int := s16 ((seqRaw.toNat : Int) - low16 ref)

/-- `ref_cseq + delta` as an exact integer (R164), a u32 or the reason why it is none. -/
def extendSequence (ref : Word) (seqRaw : Half) : Except Reason Word :=
  let e := (ref.toNat : Int) + seqDelta ref seqRaw
  if e < 0 then .error .seqUnderflow
  else if 0xFFFFFFFF < e then .error .seqOverflow
  else .ok (BitVec.ofNat 32 e.toNat)

/-- The end of a successful SEQ.NEXT: the reference is the value returned (R161, R163). -/
def State.acceptSequence (s : State) (e : Word) : State :=
  (s.setTracker e true).respond { status := .ok, ext := e }

/-- SEQ.NEXT (R160): the first call takes the raw number (R161); a later one extends it against the reference (R162,
R163), or fails outside the u32 range with the state unchanged (R164). -/
def execSeqNext (seqRaw : Half) (s : State) : Host.Outcome State Fault Refusal :=
  if s.initialized then
    match extendSequence s.refCseq seqRaw with
    | .ok e => .next (s.acceptSequence e)
    | .error r => .next (s.raise .invalidPayloadDescriptor r)
  else .next (s.acceptSequence (seqRaw.setWidth 32))

/-- SEQ.RESET (R170): both tracker fields return to their initial value. -/
def execSeqReset (s : State) : Host.Outcome State Fault Refusal :=
  .next ((s.setTracker 0 false).respond { status := .ok })

end Sys2Proof.Machine
end

