-- ==== Sys2Proof/Machine/Dispatch.lean ====
section
/-! DEFINITION. One arm per instruction (spec/30_encoding.md R62). -/

namespace Sys2Proof.Machine

/-- What a command does to the block (spec/10_state.md R25). -/
def exec (i : Instr) (s : State) : Host.Outcome State Fault Refusal :=
  match i with
  | .pdDec decLen decWin => Sys2Proof.Machine.execPdDec decLen decWin s
  | .pdEnc encDesc => Sys2Proof.Machine.execPdEnc encDesc s
  | .seqNext seqRaw => Sys2Proof.Machine.execSeqNext seqRaw s
  | .seqReset => Sys2Proof.Machine.execSeqReset s

end Sys2Proof.Machine
end

