-- ==== Sys2Proof/Machine/Step.lean ====
section
/-! DEFINITION. One step (spec/10_state.md R24, R25; spec/20_memory.md R51): the host's next command, decoded and
performed as one indivisible whole. -/

namespace Sys2Proof.Machine

/-- The step: the command the host presents is taken and performed; a reserved `op` is answered with ILLEGAL_OP
(spec/30_encoding.md R63); with no command presented the block holds its state (spec/60_exceptions.md R215). -/
def step (s : State) : Host.Outcome State Fault Refusal :=
  match takeCommand s with
  | none => .next (idle s)
  | some (c, s0) =>
    match decode c with
    | .ok i => exec i s0
    | .error e => .next (rejectCommand e s0)

/-- The host presents the table word `w` next: the block fetches nothing, and commands come from the port only
(spec/20_memory.md R54; notes/assumptions/2.md). -/
def State.withFetchWord (s : State) (nbits w : Nat) : State := presentNext s (Command.ofTableWord nbits w)

end Sys2Proof.Machine
end

