-- ==== Sys2Proof/Machine/HostAgent.lean ====
section
/-! DEFINITION. The host agent (spec/10_state.md R24): the command sequences it owes the block and what it does with
the responses (spec/70_reset_and_hazards.md R243 to R247). Nothing here is part of `step`. -/

namespace Sys2Proof.Machine

/-- The host sets its commands: `cs` is what it will issue, in order. -/
def State.withProgram (s : State) (cs : List Command) : State := { s with inbox := cs }

/-- PD.DEC for a received payload: its length and its first bytes (R245). DESIGN CHOICE (notes/assumptions/6.md): the
window bytes past a short payload are presented as 0, where R250 leaves them don't-care. -/
def decodePacket (payload : List Byte) : Command := encode (.pdDec payload.length (windowOf payload))

/-- What the receiving host issues per packet, in arrival order: PD.DEC, then SEQ.NEXT even when the decode fails
(R247). -/
def receivePacket (payload : List Byte) (seqRaw : Half) : List Command :=
  [decodePacket payload, encode (.seqNext seqRaw)]

/-- What the sending host issues per packet (R245, R247). -/
def transmitPacket (d : Descriptor) : List Command := [encode (.pdEnc d)]

/-- What the host issues before a stream and after it (R243, R244). -/
def betweenStreams : List Command := [encode .seqReset]

/-- The RTP payload: `out[0..out_len-1]` before the partition fragment (R245; spec/20_memory.md R43). -/
def prependDescriptor (r : Response) (fragment : List Byte) : List Byte :=
  r.out.toList.take r.outLen.toNat ++ fragment

/-- The VP8 bytes of a payload: they start at offset `consumed` (R245). -/
def partitionBytes (r : Response) (payload : List Byte) : List Byte := payload.drop r.consumed.toNat

end Sys2Proof.Machine
end

