-- ==== Sys2Proof/Safety.lean ====
section
/-! DEFINITION. What a legal response and a legal state are, in the terms the statements use (spec/10_state.md R25,
R28; spec/20_memory.md R43; spec/60_exceptions.md R201, R202). -/

namespace Sys2Proof.Machine

/-- The status and reason pairs of R201. -/
def legalOutcome : Status → Reason → Bool
  | .ok, .none => true
  | .invalidPayloadDescriptor, .truncated => true
  | .invalidPayloadDescriptor, .reservedBit => true
  | .invalidPayloadDescriptor, .seqUnderflow => true
  | .invalidPayloadDescriptor, .seqOverflow => true
  | .contractViolation, .fieldRange => true
  | .illegalOp, .none => true
  | _, _ => false

/-- Every data field has its default of R25: what a response with a status other than OK looks like (R202). -/
def Response.dataDefault (r : Response) : Bool :=
  r.desc == Descriptor.zero && r.consumed == 0 && r.out == Window.zero && r.outLen == 0 && r.ext == 0

/-- `out[i]` is 0 for every `i >= out_len` (R43). -/
def Response.outPadded (r : Response) : Bool :=
  (List.range 6).all fun i => decide (i < r.outLen.toNat) || byteAt r.out i == 0

/-- A response as R25, R43, R201 and R202 allow it, with the decoded Descriptor in range (R111). -/
def Response.legal (r : Response) : Bool :=
  legalOutcome r.status r.reason && (r.status == .ok || r.dataDefault) && r.desc.fieldsFit &&
    decide (r.consumed ≤ 6) && decide (r.outLen ≤ 6) && r.outPadded

/-- The invariant of the machine: the reference is 0 until the first SEQ.NEXT (R240, R242), and what stands on the
response port is legal. -/
def State.Inv (s : State) : Prop :=
  (s.initialized = false → s.refCseq = 0) ∧ ∀ r, s.resp = some r → r.legal = true

end Sys2Proof.Machine
end

