-- ==== Sys2Proof/Certificates/Slice0/Obligations.lean ====
section
/-! DEFINITION. What this model's provers are asked to prove: the numbered rules of spec/ as statements about `exec`,
`step` and runs. A rule that the spec marks as its own decision or inference is named in a docstring, with the
decision, and cited by its section only. -/

open Sys2Proof Sys2Proof.Machine

/-! ### Ports, order and reset -/

/-- The tracker after power-on reset is (0, false), the response port holds no value and no command waits. The spec's
own choice D24 (rules R20, R240, R241). -/
def Obligations.ResetStateIsInitial : Prop :=
  State.reset.refCseq = 0 ∧ State.reset.initialized = false ∧ State.reset.resp = none ∧ State.reset.inbox = []

/-- A step is `exec` of the instruction that the presented command decodes to, at the state in which that command is
taken from the host. The spec's own choice D1 (rules R24, R25), and log entry 2 for the host's commands. -/
def Obligations.StepRunsDecodedCommand : Prop :=
  ∀ (s : State) (c : Command) (rest : List Command) (i : Instr),
    s.inbox = c :: rest → decode c = .ok i → step s = exec i { s with inbox := rest }

/-- With no command presented, the block holds its state. Rule R215 (decision D33) says so of the tracker alone; that
waiting is a step is the model's choice, log entry 2, and that the response stays on the port through it is the model's
choice too, log entry 4. -/
def Obligations.IdleStepHoldsState : Prop :=
  ∀ s : State, s.inbox = [] → step s = .next s

/-- A reserved op, 0x0 or 0x5 to 0xF, answers ILLEGAL_OP(NONE) with every data field at its default, writes no state and
does not look at the operands. The spec's own choice D30 (rule R63). -/
def Obligations.ReservedOpAnswersIllegalOp : Prop :=
  ∀ (s : State) (c : Command) (rest : List Command),
    s.inbox = c :: rest → (c.op = 0 ∨ 5 ≤ c.op.toNat) →
      step s = .next { s with inbox := rest, resp := some { status := .illegalOp, reason := .none } }

/-- The words of the opcode table decode to their instructions, and the twelve others to none. The op values are the
spec's own choice D2 (rules R62, R63); that a table word carries operands of zeros is the model's choice, log entry 3. -/
def Obligations.OpcodeWordsDecode : Prop :=
  decodeTableWord 8 0x01 = some (.pdDec 0 Window.zero) ∧
  decodeTableWord 8 0x02 = some (.pdEnc Descriptor.zero) ∧
  decodeTableWord 8 0x03 = some (.seqNext 0) ∧
  decodeTableWord 8 0x04 = some .seqReset ∧
  ∀ w ∈ [0x00, 0x05, 0x06, 0x07, 0x08, 0x09, 0x0A, 0x0B, 0x0C, 0x0D, 0x0E, 0x0F], decodeTableWord 8 w = none

/-- The transaction of every instruction decodes to that instruction, every operand whole; and an instruction that was
decoded has the op it was decoded from. Decision D2 (rules R61, R62, R64). -/
def Obligations.CommandRoundTrip : Prop :=
  (∀ i : Instr, decode (encode i) = .ok i) ∧
  ∀ (c : Command) (i : Instr), decode c = .ok i → (encode i).op = c.op

/-- Operand fields that the current op does not use are ignored: two commands with the same op that agree on the fields
of its format do the same. Decision D1 (rule R26). -/
def Obligations.UnusedOperandFieldsIgnored : Prop :=
  ∀ (s : State) (c c' : Command) (rest : List Command),
    c.op = c'.op →
    (c.op = 1 → c.decLen = c'.decLen ∧ c.decWin = c'.decWin) →
    (c.op = 2 → c.encDesc = c'.encDesc) →
    (c.op = 3 → c.seqRaw = c'.seqRaw) →
      step { s with inbox := c :: rest } = step { s with inbox := c' :: rest }

/-- Every step answers a next state: the step is a total function, and nothing traps. Decisions D1, D26 (rules R25, R200). -/
def Obligations.EveryStepAnswersNext : Prop :=
  ∀ s : State, ∃ t : State, step s = .next t

/-- R51: commands are performed one at a time, in the order the host issues them. The command `c` is performed in the
state that the earlier commands left, and that state is the one they leave when the host issues nothing after them.
That the host's commands are a list in State is the model's choice, log entry 2. -/
def Obligations.CommandsPerformedInOrder : Prop :=
  ∀ (s : State) (earlier : List Command) (c : Command) (later : List Command),
    s.inbox = earlier ++ c :: later →
      ∃ t u : State,
        Sys2Proof.core.run earlier.length s = .next t ∧
        t.inbox = c :: later ∧
        Sys2Proof.core.run (earlier.length + 1) s = step t ∧
        Sys2Proof.core.run earlier.length { s with inbox := earlier } = .next u ∧
        t = { u with inbox := c :: later }

/-- No step changes a parameter of the instance. Rules R5 and R23 (decision D7); that the parameters ride in the state is
log entry 1. -/
def Obligations.ParametersNeverChange : Prop :=
  ∀ s t : State, step s = .next t → t.cfg = s.cfg

/-- No step depends on `LEN_BITS` or `LATENCY`. Decisions D6, D32 (rules R5, R251). -/
def Obligations.WidthAndLatencyNeverMatter : Prop :=
  ∀ (s t : State) (lenBits latency : Nat), step s = .next t →
    step { s with cfg := { strict := s.cfg.strict, lenBits := lenBits, latency := latency } } =
      .next { t with cfg := { strict := t.cfg.strict, lenBits := lenBits, latency := latency } }

/-! ### PD.DEC -/

/-- PD.DEC completes on every payload that holds the whole descriptor its flags imply, unless a strict instance sees a
reserved bit: the response has OK, the Descriptor the bytes spell and `consumed` = DescLen, and nothing else changes. A
payload that is only the descriptor is included (R110). Rules R100 to R104, R108, R110; decisions D8, D9, D10, D12. -/
def Obligations.DecodeCompletes : Prop :=
  ∀ (s : State) (len : Nat) (w : Window),
    wireLen w ≤ len →
    (s.cfg.strict = true → w[0].getLsbD 6 = false ∧ (wireX w = true → w[1] &&& 0x0F = 0)) →
      exec (.pdDec len w) s = .next { s with
        resp := some
          { status := .ok
            reason := .none
            desc := wireDescriptor w
            consumed := BitVec.ofNat 3 (wireLen w)
            out := Window.zero
            outLen := 0
            ext := 0 } }

/-- R105: a byte at or beyond `dec_len` is not read. A payload shorter than its DescLen raises TRUNCATED (where no reserved
bit of an available byte comes first); only a payload of at least DescLen bytes decodes; an empty payload always raises
TRUNCATED; and windows that agree below `dec_len` give the same outcome. -/
def Obligations.TruncationCheckedBeforeEveryRead : Prop :=
  (∀ (s : State) (len : Nat) (w : Window),
    len < wireLen w →
    (s.cfg.strict = true → 1 ≤ len → w[0].getLsbD 6 = false) →
    (s.cfg.strict = true → 2 ≤ len → wireX w = true → w[1] &&& 0x0F = 0) →
      exec (.pdDec len w) s =
        .next { s with resp := some { status := .invalidPayloadDescriptor, reason := .truncated } }) ∧
  (∀ (s t : State) (len : Nat) (w : Window) (r : Response),
    exec (.pdDec len w) s = .next t → t.resp = some r → r.status = .ok → wireLen w ≤ len) ∧
  (∀ (s : State) (w : Window),
    exec (.pdDec 0 w) s =
      .next { s with resp := some { status := .invalidPayloadDescriptor, reason := .truncated } }) ∧
  ∀ (s : State) (len : Nat) (w w' : Window),
    (∀ i < len, byteAt w i = byteAt w' i) → exec (.pdDec len w) s = exec (.pdDec len w') s

/-- With `STRICT = true` a reserved bit of byte 0, or of byte 1 where X = 1, raises RESERVED_BIT as soon as its byte is
available, and with `STRICT = false` the reserved bits affect nothing (rule R106). The bits of the T/K byte that its flags
make meaningless change nothing in the outcome, for either `STRICT`: R106 says that they are never checked, and that they
are ignored is rules R74 and R108 under the spec's own choice D10, log entry 5. -/
def Obligations.ReservedBitsCheckedOnlyWhenStrict : Prop :=
  (∀ (s : State) (len : Nat) (w : Window),
    s.cfg.strict = true → 1 ≤ len → w[0].getLsbD 6 = true →
      exec (.pdDec len w) s =
        .next { s with resp := some { status := .invalidPayloadDescriptor, reason := .reservedBit } }) ∧
  (∀ (s : State) (len : Nat) (w : Window),
    s.cfg.strict = true → 2 ≤ len → w[0].getLsbD 6 = false → wireX w = true → w[1] &&& 0x0F ≠ 0 →
      exec (.pdDec len w) s =
        .next { s with resp := some { status := .invalidPayloadDescriptor, reason := .reservedBit } }) ∧
  (∀ (s : State) (len : Nat) (w w' : Window),
    s.cfg.strict = false →
    w[0] &&& 0xBF = w'[0] &&& 0xBF → w[1] &&& 0xF0 = w'[1] &&& 0xF0 →
    (∀ i, 2 ≤ i → byteAt w i = byteAt w' i) →
      exec (.pdDec len w) s = exec (.pdDec len w') s) ∧
  ∀ (s : State) (len : Nat) (w w' : Window),
    (∀ i, i ≠ wireOffTk w → byteAt w i = byteAt w' i) →
    byteAt w (wireOffTk w) &&& wireTkMask w = byteAt w' (wireOffTk w) &&& wireTkMask w →
      exec (.pdDec len w) s = exec (.pdDec len w') s

/-- RESERVED_BIT is reported only by a strict instance, and only for a reserved bit that is 1 in a byte the payload has:
byte 0 bit 6, or byte 1 bits 3 to 0 where X = 1. Rules R76, R107 (decision D13). -/
def Obligations.ReservedBitReportedOnlyWhenSet : Prop :=
  ∀ (s t : State) (len : Nat) (w : Window) (r : Response),
    exec (.pdDec len w) s = .next t → t.resp = some r → r.reason = .reservedBit →
      s.cfg.strict = true ∧
      ((1 ≤ len ∧ w[0].getLsbD 6 = true) ∨ (2 ≤ len ∧ wireX w = true ∧ w[1] &&& 0x0F ≠ 0))

/-- Every `dec_len` of 6 or more gives the response of `dec_len` = 6. An inference of the spec's, rule R42. -/
def Obligations.LongPayloadActsAsSixBytes : Prop :=
  ∀ (s : State) (len : Nat) (w : Window), 6 ≤ len → exec (.pdDec len w) s = exec (.pdDec 6 w) s

/-- R101: a decoded Descriptor has X, N, S and PID from byte 0's bits 7, 5, 4 and 3 to 0; bit 6 is not reported, so two
successful decodes of windows that differ in nothing else have the same Descriptor. -/
def Obligations.ByteZeroGivesFourFields : Prop :=
  (∀ (s t : State) (len : Nat) (w : Window) (r : Response),
    exec (.pdDec len w) s = .next t → t.resp = some r → r.status = .ok →
      r.desc.extendedControlBitsPresent = w[0].getLsbD 7 ∧
      r.desc.nonReferenceFrame = w[0].getLsbD 5 ∧
      r.desc.startOfPartition = w[0].getLsbD 4 ∧
      r.desc.pid = (w[0].extractLsb 3 0).setWidth 8) ∧
  ∀ (s t t' : State) (len : Nat) (w w' : Window) (r r' : Response),
    w'[0] = w[0] ^^^ 0x40 → (∀ i, 1 ≤ i → byteAt w' i = byteAt w i) →
    exec (.pdDec len w) s = .next t → t.resp = some r → r.status = .ok →
    exec (.pdDec len w') s = .next t' → t'.resp = some r' → r'.status = .ok →
      r'.desc = r.desc

/-- R102: where X = 1 a decoded Descriptor has I, L, T and K from byte 1's bits 7 to 4. Where X = 0 no byte but byte 0 is
read (any other window with that byte 0, and any other length of at least 1, give the same outcome), the four presence
flags are false and `consumed` is 1. -/
def Obligations.ExtensionByteGivesPresenceFlags : Prop :=
  (∀ (s t : State) (len : Nat) (w : Window) (r : Response),
    exec (.pdDec len w) s = .next t → t.resp = some r → r.status = .ok → w[0].getLsbD 7 = true →
      r.desc.pictureidPresent = w[1].getLsbD 7 ∧
      r.desc.tl0picidxPresent = w[1].getLsbD 6 ∧
      r.desc.tidPresent = w[1].getLsbD 5 ∧
      r.desc.keyidxPresent = w[1].getLsbD 4) ∧
  (∀ (s : State) (len len' : Nat) (w w' : Window),
    w[0].getLsbD 7 = false → w'[0] = w[0] → 1 ≤ len → 1 ≤ len' →
      exec (.pdDec len w) s = exec (.pdDec len' w') s) ∧
  ∀ (s t : State) (len : Nat) (w : Window) (r : Response),
    exec (.pdDec len w) s = .next t → t.resp = some r → r.status = .ok → w[0].getLsbD 7 = false →
      r.desc.pictureidPresent = false ∧ r.desc.tl0picidxPresent = false ∧
      r.desc.tidPresent = false ∧ r.desc.keyidxPresent = false ∧ r.consumed = 1

/-- R104: `consumed` is DescLen, and no byte at or beyond that offset is read: the outcome is the same for every window
that has the descriptor's bytes and every length that holds them. -/
def Obligations.NothingReadPastDescriptor : Prop :=
  (∀ (s t : State) (len : Nat) (w : Window) (r : Response),
    exec (.pdDec len w) s = .next t → t.resp = some r → r.status = .ok →
      r.consumed.toNat = wireLen w) ∧
  ∀ (s : State) (len len' : Nat) (w w' : Window),
    wireLen w ≤ len → wireLen w ≤ len' → (∀ i < wireLen w, byteAt w i = byteAt w' i) →
      exec (.pdDec len w) s = exec (.pdDec len' w') s

/-- The picture ID of a decoded Descriptor with I = 1: the low 7 bits of the byte at offset 2 where its bit 7 is 0, else
those 7 bits above the byte at offset 3, whatever the value. Rule R103; the byte order is decision D8. -/
def Obligations.PictureIdFormsDecode : Prop :=
  ∀ (s t : State) (len : Nat) (w : Window) (r : Response),
    exec (.pdDec len w) s = .next t → t.resp = some r → r.status = .ok → r.desc.pictureidPresent = true →
      r.desc.pictureId.toNat =
        if w[2].getLsbD 7 then 256 * (w[2].toNat % 128) + w[3].toNat else w[2].toNat % 128

/-- A decoded Descriptor satisfies clauses 1, 3, 4, 5 and 6 of R28 (so a field whose flag is 0 is 0), clause 2 too unless
X = 1 with no field flag, and `1 <= consumed <= min(dec_len, 6)`. An inference of the spec's, rule R111; the zero of an
absent field is decision D9. -/
def Obligations.DecodedDescriptorIsInRange : Prop :=
  ∀ (s t : State) (len : Nat) (w : Window) (r : Response),
    exec (.pdDec len w) s = .next t → t.resp = some r → r.status = .ok →
      r.desc.fieldsFit = true ∧
      (r.desc.flagsConsistent = false ↔ w[0].getLsbD 7 = true ∧ w[1] &&& 0xF0 = 0) ∧
      1 ≤ r.consumed.toNat ∧ r.consumed.toNat ≤ min len 6

/-- X = 1 with I = L = T = K = 0 is accepted with `consumed` = 2, and PD.ENC packs the decoded Descriptor into 1 byte with
X = 0. Rules R109, R132 (decisions D11, D15). -/
def Obligations.EmptyExtensionByteAccepted : Prop :=
  ∀ (s : State) (len : Nat) (w : Window),
    2 ≤ len → w[0].getLsbD 7 = true → w[1] &&& 0xF0 = 0 →
    (s.cfg.strict = true → w[0].getLsbD 6 = false ∧ w[1] = 0) →
      ∃ t u : State, ∃ r q : Response,
        exec (.pdDec len w) s = .next t ∧ t.resp = some r ∧ r.status = .ok ∧ r.consumed = 2 ∧
        r.desc.extendedControlBitsPresent = true ∧
        exec (.pdEnc r.desc) s = .next u ∧ u.resp = some q ∧ q.status = .ok ∧ q.outLen = 1 ∧
        q.out[0] = w[0] &&& 0x3F

/-- A decode answers OK with the zero descriptor exactly when byte 0 is available and its bits other than bit 6 are 0, and
bit 6 too on a strict instance; then `consumed` is 1. An inference of the spec's, rule R29. -/
def Obligations.ZeroDescriptorIsAlsoASuccess : Prop :=
  ∀ (s : State) (len : Nat) (w : Window),
    (1 ≤ len ∧ w[0] &&& 0xBF = 0 ∧ (s.cfg.strict = true → w[0].getLsbD 6 = false)) ↔
      ∃ t : State, ∃ r : Response,
        exec (.pdDec len w) s = .next t ∧ t.resp = some r ∧ r.status = .ok ∧
        r.desc = Descriptor.zero ∧ r.consumed = 1

/-! ### PD.ENC -/

/-- PD.ENC completes on every Descriptor whose present fields fit the wire: the response has OK, the minimal byte pattern
followed by zero bytes and its length, and nothing else changes. Rules R43, R130 to R136 (decisions D10, D15 to D19). -/
def Obligations.EncodeCompletes : Prop :=
  ∀ (s : State) (d : Descriptor),
    d.pid ≤ 15 →
    (d.pictureidPresent = true → d.pictureId ≤ 0x7FFF) →
    (d.tidPresent = true → d.tid ≤ 3) →
    (d.keyidxPresent = true → d.keyidx ≤ 31) →
      exec (.pdEnc d) s = .next { s with
        resp := some
          { status := .ok
            reason := .none
            desc := Descriptor.zero
            consumed := 0
            out := windowOf (descriptorBytes d)
            outLen := BitVec.ofNat 3 (descriptorBytes d).length
            ext := 0 } }

/-- A present field that does not fit its wire width is reported as CONTRACT_VIOLATION(FIELD_RANGE), with no byte written.
The spec's own choice D18 (rule R131). -/
def Obligations.EncodeReportsFieldRange : Prop :=
  ∀ (s : State) (d : Descriptor),
    (15 < d.pid ∨ (d.pictureidPresent = true ∧ 0x7FFF < d.pictureId) ∨
      (d.tidPresent = true ∧ 3 < d.tid) ∨ (d.keyidxPresent = true ∧ 31 < d.keyidx)) →
      exec (.pdEnc d) s =
        .next { s with resp := some { status := .contractViolation, reason := .fieldRange } }

/-- The input field X is not read. The spec's own choice D15 (rule R132). -/
def Obligations.EncodeIgnoresInputX : Prop :=
  ∀ (s : State) (d : Descriptor) (x : Bool),
    exec (.pdEnc { d with extendedControlBitsPresent := x }) s = exec (.pdEnc d) s

/-- The values of absent fields have no effect on what PD.ENC does. The spec's own choice D16 (rule R137). -/
def Obligations.EncodeIgnoresAbsentFields : Prop :=
  ∀ (s : State) (d : Descriptor) (pictureId : Half) (tl0picidx tid keyidx : Byte) (layerSync : Bool),
    exec (.pdEnc { d with
      pictureId := if d.pictureidPresent then d.pictureId else pictureId
      tl0picidx := if d.tl0picidxPresent then d.tl0picidx else tl0picidx
      tid := if d.tidPresent then d.tid else tid
      layerSync := if d.tidPresent then d.layerSync else layerSync
      keyidx := if d.keyidxPresent then d.keyidx else keyidx }) s = exec (.pdEnc d) s

/-- Byte 0 of an encoded descriptor is `{X, 0, N, S, PID}` (rule R133). That X is 1 exactly when a field flag is, whatever
the input's own X, is rule R132 under the spec's own choice D15, log entry 5. -/
def Obligations.EncodedByteZero : Prop :=
  ∀ (s t : State) (d : Descriptor) (r : Response),
    exec (.pdEnc d) s = .next t → t.resp = some r → r.status = .ok →
      r.out[0].getLsbD 7 = (d.pictureidPresent || d.tl0picidxPresent || d.tidPresent || d.keyidxPresent) ∧
      r.out[0].getLsbD 6 = false ∧
      r.out[0].getLsbD 5 = d.nonReferenceFrame ∧
      r.out[0].getLsbD 4 = d.startOfPartition ∧
      r.out[0].extractLsb 3 0 = d.pid.extractLsb 3 0

/-- R134: when X = 1, byte 1 of an encoded descriptor is `{I, L, T, K, 0000}`. -/
def Obligations.EncodedExtensionByte : Prop :=
  ∀ (s t : State) (d : Descriptor) (r : Response),
    exec (.pdEnc d) s = .next t → t.resp = some r → r.status = .ok → r.out[0].getLsbD 7 = true →
      r.out[1].getLsbD 7 = d.pictureidPresent ∧
      r.out[1].getLsbD 6 = d.tl0picidxPresent ∧
      r.out[1].getLsbD 5 = d.tidPresent ∧
      r.out[1].getLsbD 4 = d.keyidxPresent ∧
      r.out[1].extractLsb 3 0 = 0

/-- An encoded picture ID takes one byte when it is at most 127, else two, the high bits and M = 1 first. Rule R135
(decisions D8, D17). -/
def Obligations.EncodedPictureIdIsShortest : Prop :=
  ∀ (s t : State) (d : Descriptor) (r : Response),
    exec (.pdEnc d) s = .next t → t.resp = some r → r.status = .ok → d.pictureidPresent = true →
      if d.pictureId.toNat ≤ 127 then r.out[2].toNat = d.pictureId.toNat
      else r.out[2].toNat = 128 + d.pictureId.toNat / 256 ∧ r.out[3].toNat = d.pictureId.toNat % 256

/-- The last byte of an encoded descriptor with T or K is `{TID, Y, KEYIDX}`, a sub-field whose flag is 0 being 0; the byte
before it, or the last where T = K = 0, is TL0PICIDX where L = 1. Rules R73, R136 (decision D10). -/
def Obligations.EncodedTrailingBytes : Prop :=
  ∀ (s t : State) (d : Descriptor) (r : Response),
    exec (.pdEnc d) s = .next t → t.resp = some r → r.status = .ok →
      ((d.tidPresent || d.keyidxPresent) = true →
        (byteAt r.out (r.outLen.toNat - 1)).toNat =
          (if d.tidPresent then 64 * d.tid.toNat + 32 * d.layerSync.toNat else 0) +
            (if d.keyidxPresent then d.keyidx.toNat else 0)) ∧
      (d.tl0picidxPresent = true →
        byteAt r.out (r.outLen.toNat - 1 - (d.tidPresent || d.keyidxPresent).toNat) = d.tl0picidx)

/-- `out_len` is DescLen of the flags PD.ENC writes, with M = 1 for a picture ID above 127, and every byte of the window
from there on is 0. An inference of the spec's, rule R138, and decision D19 (rules R43, R77). -/
def Obligations.EncodedLengthIsMinimal : Prop :=
  ∀ (s t : State) (d : Descriptor) (r : Response),
    exec (.pdEnc d) s = .next t → t.resp = some r → r.status = .ok →
      r.outLen.toNat =
        descLen (d.pictureidPresent || d.tl0picidxPresent || d.tidPresent || d.keyidxPresent)
          d.pictureidPresent (decide (127 < d.pictureId)) d.tl0picidxPresent d.tidPresent d.keyidxPresent ∧
      ∀ i, r.outLen.toNat ≤ i → byteAt r.out i = 0

/-- The length of a descriptor lies between 1 and 6, and is 6 exactly when every flag is 1 (T or K for the last byte). An
inference of the spec's, rule R77. -/
def Obligations.DescriptorLengthBounds : Prop :=
  ∀ x i m l t k : Bool,
    1 ≤ descLen x i m l t k ∧ descLen x i m l t k ≤ 6 ∧
    (descLen x i m l t k = 6 ↔ x = true ∧ i = true ∧ m = true ∧ l = true ∧ (t = true ∨ k = true))

/-! ### The codec's laws -/

/-- Round trip, decode after encode: for every well-formed d and any `STRICT`, PD.ENC answers OK, and PD.DEC of any window
that begins with its bytes, at any length that holds them, answers OK with d itself and `consumed` = `out_len`. An
inference of the spec's, rule R139. -/
def Obligations.DecodeAfterEncode : Prop :=
  ∀ (s : State) (d : Descriptor), d.wellFormed = true →
    ∃ t : State, ∃ r : Response,
      exec (.pdEnc d) s = .next t ∧ t.resp = some r ∧ r.status = .ok ∧
      ∀ (s' : State) (len : Nat) (w : Window),
        r.outLen.toNat ≤ len → (∀ i < r.outLen.toNat, byteAt w i = byteAt r.out i) →
          exec (.pdDec len w) s' =
            .next { s' with resp := some { status := .ok, desc := d, consumed := r.outLen } }

/-- Encode after decode: PD.ENC of a decoded Descriptor answers OK (so never FIELD_RANGE), its bytes are the window's bytes
normalised, and they are no more than the decode consumed. Inferences of the spec's, rules R140 and R141. -/
def Obligations.EncodeAfterDecode : Prop :=
  ∀ (s t : State) (len : Nat) (w : Window) (r : Response),
    exec (.pdDec len w) s = .next t → t.resp = some r → r.status = .ok →
      ∃ u : State, ∃ q : Response,
        exec (.pdEnc r.desc) s = .next u ∧ u.resp = some q ∧ q.status = .ok ∧
        q.out = windowOf (normalizedBytes w) ∧
        q.outLen.toNat = (normalizedBytes w).length ∧
        q.outLen.toNat ≤ r.consumed.toNat

/-- What a sending host builds, a receiving host takes apart: the payload made of PD.ENC's bytes and a partition fragment
decodes, on any other instance, to the same Descriptor, and the bytes after `consumed` are the fragment. Rules R43, R139,
R245; the receiver's window past a short payload is log entry 6. -/
def Obligations.PacketRoundTrip : Prop :=
  ∀ (s s' : State) (d : Descriptor) (fragment : List Byte), d.wellFormed = true →
    ∃ t u : State, ∃ r q : Response,
      step (s.withProgram (transmitPacket d)) = .next t ∧ t.resp = some r ∧ r.status = .ok ∧
      step (s'.withProgram [decodePacket (prependDescriptor r fragment)]) = .next u ∧ u.resp = some q ∧
      q.status = .ok ∧ q.desc = d ∧ partitionBytes q (prependDescriptor r fragment) = fragment

/-- R21: what PD.DEC answers is a function of its operands and `STRICT` alone, what PD.ENC answers a function of its operands
alone, and neither reads or writes the tracker. -/
def Obligations.CodecIsStateless : Prop :=
  (∀ (s s' t t' : State) (len : Nat) (w : Window),
    s.cfg.strict = s'.cfg.strict →
    exec (.pdDec len w) s = .next t → exec (.pdDec len w) s' = .next t' →
      t'.resp = t.resp ∧ t = { s with resp := t.resp }) ∧
  ∀ (s s' t t' : State) (d : Descriptor),
    exec (.pdEnc d) s = .next t → exec (.pdEnc d) s' = .next t' →
      t'.resp = t.resp ∧ t = { s with resp := t.resp }

/-- Repeating PD.DEC or PD.ENC with the same operands gives the same response and changes nothing more. An inference of the
spec's, rule R49. -/
def Obligations.CodecIsIdempotent : Prop :=
  (∀ (s t : State) (len : Nat) (w : Window),
    exec (.pdDec len w) s = .next t → exec (.pdDec len w) t = .next t) ∧
  ∀ (s t : State) (d : Descriptor), exec (.pdEnc d) s = .next t → exec (.pdEnc d) t = .next t

/-! ### SEQ.NEXT and SEQ.RESET -/

/-- R161: the first SEQ.NEXT takes the raw number, whatever `ref_cseq` held, and cannot fail. -/
def Obligations.FirstSequenceNumberIsTaken : Prop :=
  ∀ (s : State) (raw : Half), s.initialized = false →
    exec (.seqNext raw) s = .next { s with
      refCseq := raw.setWidth 32
      initialized := true
      resp := some { status := .ok, ext := raw.setWidth 32 } }

/-- R162: there is exactly one integer in [-32768, 32767] congruent to `seq_raw - ref_cseq` modulo 2^16; it is the
difference of the low 16 bits read as two's complement, and a later SEQ.NEXT whose sum is a u32 returns `ref_cseq` plus
it. -/
def Obligations.DeltaIsTheUniqueSignedDifference : Prop :=
  ∀ (s : State) (raw : Half),
    (∃! delta : Int, -32768 ≤ delta ∧ delta ≤ 32767 ∧
      (65536 : Int) ∣ delta - ((raw.toNat : Int) - (s.refCseq.toNat : Int))) ∧
    ∀ delta : Int, -32768 ≤ delta → delta ≤ 32767 →
      (65536 : Int) ∣ delta - ((raw.toNat : Int) - (s.refCseq.toNat : Int)) →
        s16 ((raw.toNat : Int) - low16 s.refCseq) = delta ∧
        (s.initialized = true → 0 ≤ (s.refCseq.toNat : Int) + delta →
          (s.refCseq.toNat : Int) + delta ≤ 0xFFFFFFFF →
          ∃ t : State, ∃ r : Response,
            exec (.seqNext raw) s = .next t ∧ t.resp = some r ∧ r.status = .ok ∧
            (r.ext.toNat : Int) = (s.refCseq.toNat : Int) + delta)

/-- A later SEQ.NEXT whose sum is a u32 completes: the reference and `ext` become `ref_cseq` plus the 16-bit difference read
as two's complement, backward ones included, and nothing else changes. Rules R160, R162, R163 (decision D20). -/
def Obligations.SequenceNumberIsExtended : Prop :=
  ∀ (s : State) (raw : Half), s.initialized = true →
    0 ≤ (s.refCseq.toNat : Int) + (raw - s.refCseq.setWidth 16).toInt →
    (s.refCseq.toNat : Int) + (raw - s.refCseq.setWidth 16).toInt ≤ 0xFFFFFFFF →
      exec (.seqNext raw) s = .next { s with
        refCseq := BitVec.ofInt 32 ((s.refCseq.toNat : Int) + (raw - s.refCseq.setWidth 16).toInt)
        resp := some
          { status := .ok
            ext := BitVec.ofInt 32 ((s.refCseq.toNat : Int) + (raw - s.refCseq.setWidth 16).toInt) } }

/-- A sum below 0 raises SEQ_UNDERFLOW and a sum above 0xFFFFFFFF raises SEQ_OVERFLOW, with the tracker unchanged. The spec's
own choices D22, D23 (rule R164). -/
def Obligations.SequenceRangeExitsAreRejected : Prop :=
  ∀ (s : State) (raw : Half), s.initialized = true →
    ((s.refCseq.toNat : Int) + (raw - s.refCseq.setWidth 16).toInt < 0 →
      exec (.seqNext raw) s =
        .next { s with resp := some { status := .invalidPayloadDescriptor, reason := .seqUnderflow } }) ∧
    (0xFFFFFFFF < (s.refCseq.toNat : Int) + (raw - s.refCseq.setWidth 16).toInt →
      exec (.seqNext raw) s =
        .next { s with resp := some { status := .invalidPayloadDescriptor, reason := .seqOverflow } })

/-- A difference of exactly 0x8000 is taken as -32768: a step back where the reference allows it, else SEQ_UNDERFLOW. The
spec's own choice D21 (rule R165). -/
def Obligations.SequenceTieGoesBackward : Prop :=
  ∀ (s : State) (raw : Half), s.initialized = true → raw - s.refCseq.setWidth 16 = 0x8000 →
    (32768 ≤ s.refCseq.toNat →
      exec (.seqNext raw) s = .next { s with
        refCseq := s.refCseq - 32768, resp := some { status := .ok, ext := s.refCseq - 32768 } }) ∧
    (s.refCseq.toNat < 32768 →
      exec (.seqNext raw) s =
        .next { s with resp := some { status := .invalidPayloadDescriptor, reason := .seqUnderflow } })

/-- The low 16 bits of a returned number are the raw number. An inference of the spec's, rule R166. -/
def Obligations.ExtendedNumberKeepsRawNumber : Prop :=
  ∀ (s t : State) (raw : Half) (r : Response),
    exec (.seqNext raw) s = .next t → t.resp = some r → r.status = .ok → r.ext.setWidth 16 = raw

/-- A stream whose raw numbers advance by steps of 1 to 32767 (in-order input is the steps of 1) is returned as its exact
32-bit numbering from the first raw number on, across every wrap, up to the top of the range; so it is strictly
increasing. An inference of the spec's, rule R167. -/
def Obligations.ForwardStreamIsNumberedExactly : Prop :=
  ∀ (s : State) (raw : Half) (steps : List Nat),
    s.initialized = false →
    (∀ d ∈ steps, 1 ≤ d ∧ d ≤ 32767) →
    raw.toNat + steps.sum ≤ 0xFFFFFFFF →
    s.inbox = (List.range (steps.length + 1)).map
      (fun k => encode (.seqNext (raw + BitVec.ofNat 16 (steps.take k).sum))) →
      ∀ k ≤ steps.length, ∃ t : State, ∃ r : Response,
        Sys2Proof.core.run (k + 1) s = .next t ∧ t.resp = some r ∧ r.status = .ok ∧
        r.ext.toNat = raw.toNat + (steps.take k).sum

/-- A duplicate returns the reference and leaves the tracker unchanged. An inference of the spec's, rule R168. -/
def Obligations.DuplicateReturnsReference : Prop :=
  ∀ s : State, s.initialized = true →
    exec (.seqNext (s.refCseq.setWidth 16)) s =
      .next { s with resp := some { status := .ok, ext := s.refCseq } }

/-- A backward packet returns less than the reference, and the reference moves back to it. An inference of the spec's,
rule R169, and decision D20. -/
def Obligations.BackwardPacketMovesReferenceBack : Prop :=
  ∀ (s t : State) (raw : Half) (r : Response), s.initialized = true →
    (raw - s.refCseq.setWidth 16).toInt < 0 →
    exec (.seqNext raw) s = .next t → t.resp = some r → r.status = .ok →
      r.ext < s.refCseq ∧ t.refCseq = r.ext

/-- A packet displaced by more than 32768 and less than 65536 is returned at the displacement of the other sign, with status
OK; one displaced by a multiple of 65536 is returned as a duplicate. An inference of the spec's, rule R172. -/
def Obligations.FarDisplacementAliases : Prop :=
  ∀ (s : State) (raw : Half) (displacement : Int), s.initialized = true →
    (65536 : Int) ∣ (raw.toNat : Int) - ((s.refCseq.toNat : Int) + displacement) →
    (32768 < displacement → displacement < 65536 → 0 ≤ (s.refCseq.toNat : Int) + displacement - 65536 →
      exec (.seqNext raw) s = .next { s with
        refCseq := BitVec.ofInt 32 ((s.refCseq.toNat : Int) + displacement - 65536)
        resp := some { status := .ok, ext := BitVec.ofInt 32 ((s.refCseq.toNat : Int) + displacement - 65536) } }) ∧
    (-65536 < displacement → displacement < -32768 →
      (s.refCseq.toNat : Int) + displacement + 65536 ≤ 0xFFFFFFFF →
      exec (.seqNext raw) s = .next { s with
        refCseq := BitVec.ofInt 32 ((s.refCseq.toNat : Int) + displacement + 65536)
        resp := some { status := .ok, ext := BitVec.ofInt 32 ((s.refCseq.toNat : Int) + displacement + 65536) } }) ∧
    ((65536 : Int) ∣ displacement →
      exec (.seqNext raw) s = .next { s with resp := some { status := .ok, ext := s.refCseq } })

/-- SEQ.RESET puts the tracker in its initial state and answers OK; nothing else changes. Its being a command is the spec's
own choice D25 (rule R170). -/
def Obligations.SequenceResetClearsTracker : Prop :=
  ∀ s : State, exec .seqReset s =
    .next { s with refCseq := 0, initialized := false, resp := some { status := .ok, reason := .none } }

/-- SEQ.RESET is idempotent, and the SEQ.NEXT after it is a first call, whatever the state before. An inference of the
spec's, rule R171. -/
def Obligations.SequenceResetRestartsStream : Prop :=
  ∀ (s t : State) (raw : Half), exec .seqReset s = .next t →
    exec .seqReset t = .next t ∧
    exec (.seqNext raw) t = .next { s with
      refCseq := raw.setWidth 32, initialized := true, resp := some { status := .ok, ext := raw.setWidth 32 } }

/-- While `initialized` is false, the value of `ref_cseq` makes no observable difference: no response depends on it, and a
SEQ.NEXT or SEQ.RESET leaves the same state whatever it was. An inference of the spec's, rules R30 and R242. -/
def Obligations.UninitializedReferenceIsNeverRead : Prop :=
  (∀ (s t t' : State) (ref : Word) (i : Instr), s.initialized = false →
    exec i s = .next t → exec i { s with refCseq := ref } = .next t' →
      t'.resp = t.resp ∧ t'.initialized = t.initialized) ∧
  ∀ (s : State) (ref : Word) (raw : Half), s.initialized = false →
    exec (.seqNext raw) { s with refCseq := ref } = exec (.seqNext raw) s ∧
    exec .seqReset { s with refCseq := ref } = exec .seqReset s

/-- SEQ.NEXT depends on the tracker and its operand alone: on no descriptor, no earlier response and no parameter. An
inference of the spec's, rule R173. -/
def Obligations.TrackerIgnoresDescriptors : Prop :=
  ∀ (s s' t t' : State) (raw : Half),
    s.refCseq = s'.refCseq → s.initialized = s'.initialized →
    exec (.seqNext raw) s = .next t → exec (.seqNext raw) s' = .next t' →
      t'.refCseq = t.refCseq ∧ t'.initialized = t.initialized ∧ t'.resp = t.resp

/-- After a successful SEQ.NEXT, `initialized` is true and `ref_cseq` is the `ext` returned. An inference of the spec's,
rule R31 (decision D20). -/
def Obligations.ReferenceIsTheLastReturnedNumber : Prop :=
  ∀ (s t : State) (raw : Half) (r : Response),
    exec (.seqNext raw) s = .next t → t.resp = some r → r.status = .ok →
      t.refCseq = r.ext ∧ t.initialized = true

/-! ### Statuses and the machine as a whole -/

/-- The numeric codes of the statuses and reasons. The spec's own choice D4 (rule R201). -/
def Obligations.StatusAndReasonCodes : Prop :=
  Status.ok.code = 0 ∧ Status.invalidPayloadDescriptor.code = 1 ∧ Status.contractViolation.code = 2 ∧
  Status.illegalOp.code = 3 ∧
  Reason.none.code = 0 ∧ Reason.truncated.code = 1 ∧ Reason.reservedBit.code = 2 ∧
  Reason.seqUnderflow.code = 3 ∧ Reason.seqOverflow.code = 4 ∧ Reason.fieldRange.code = 5

/-- On any status other than OK the command has no effect but its response, and that has only the status and the reason:
every data field is at its default. The spec's own choices D14, D23 (rules R25, R202, R208). -/
def Obligations.ErrorsHaveNoOtherEffect : Prop :=
  ∀ (s t : State) (c : Command) (rest : List Command) (r : Response),
    s.inbox = c :: rest → step s = .next t → t.resp = some r → r.status ≠ .ok →
      t = { s with inbox := rest, resp := some { status := r.status, reason := r.reason } }

/-- A step that changes the tracker performs SEQ.NEXT or SEQ.RESET, and answers OK. Rules R20, R21, R25 (decisions D2, D23). -/
def Obligations.OnlyTrackerCommandsChangeTheTracker : Prop :=
  ∀ s t : State, step s = .next t → (t.refCseq ≠ s.refCseq ∨ t.initialized ≠ s.initialized) →
    ∃ (c : Command) (rest : List Command) (r : Response),
      s.inbox = c :: rest ∧ ((∃ raw, decode c = .ok (.seqNext raw)) ∨ decode c = .ok .seqReset) ∧
      t.resp = some r ∧ r.status = .ok

/-- From every state that meets the invariant, a step gives one that meets it: the reference is 0 until the first SEQ.NEXT,
and the response port holds a status and reason that go together, data defaults on an error, lengths of at most 6, zero
bytes past `out_len` and a Descriptor in range. Rules R25, R43, R111, R201, R202, R240; decisions D4, D14, D19, D24. -/
def Obligations.StepKeepsInvariant : Prop :=
  ∀ s t : State, s.Inv → step s = .next t → t.Inv

/-- The invariant holds after reset. Decision D24 (rules R240, R241). -/
def Obligations.ResetMeetsInvariant : Prop := State.reset.Inv

/-- The receiving host's two commands per packet end in exactly what SEQ.NEXT does by itself, whether or not the descriptor
decoded: the tracker sees every packet. Rule R247; the receiver's window past a short payload is log entry 6. -/
def Obligations.TrackerSeesEveryPacket : Prop :=
  ∀ (s : State) (payload : List Byte) (raw : Half) (later : List Command),
    s.inbox = receivePacket payload raw ++ later →
      Sys2Proof.core.run 2 s = exec (.seqNext raw) { s with inbox := later }
end

