-- ==== Sys2Proof/Laws/Ops.lean ====
section
/-! SUPPORT. What each shared operation does, said once: integers, windows, the command port. -/

namespace Sys2Proof.Machine

/-! ### Integers -/

theorem s16_lower (v : Int) : -32768 ≤ s16 v := by
  simp only [s16]; split <;> omega

theorem s16_upper (v : Int) : s16 v ≤ 32767 := by
  simp only [s16]; split <;> omega

theorem s16_congruent (v : Int) : (65536 : Int) ∣ s16 v - v := by
  simp only [s16]; split <;> omega

/-- The range and the residue determine `s16` (spec/00_scope.md R8). -/
theorem s16_unique {v d : Int} (lo : -32768 ≤ d) (hi : d ≤ 32767) (hc : (65536 : Int) ∣ d - v) : s16 v = d := by
  simp only [s16]; split <;> omega

/-- The tracker's difference is the 16-bit difference read as two's complement. -/
theorem seqDelta_eq_toInt (ref : Word) (raw : Half) :
    seqDelta ref raw = (raw - ref.setWidth 16).toInt := by
  unfold seqDelta low16
  refine s16_unique (BitVec.le_toInt _) (by have := BitVec.toInt_lt (x := raw - ref.setWidth 16); omega) ?_
  rw [BitVec.toInt_sub]
  simp only [BitVec.toInt_eq_toNat_bmod, BitVec.toNat_setWidth]
  rw [Int.bmod_def, Int.bmod_def, Int.bmod_def]
  split <;> split <;> split <;> omega

/-- Everything `extendSequence` can answer. -/
theorem extendSequence_cases (ref : Word) (raw : Half) :
    ((ref.toNat : Int) + seqDelta ref raw < 0 ∧ extendSequence ref raw = .error .seqUnderflow) ∨
    (0xFFFFFFFF < (ref.toNat : Int) + seqDelta ref raw ∧ extendSequence ref raw = .error .seqOverflow) ∨
    ∃ e : Word, (e.toNat : Int) = (ref.toNat : Int) + seqDelta ref raw ∧ extendSequence ref raw = .ok e := by
  unfold extendSequence
  by_cases h0 : (ref.toNat : Int) + seqDelta ref raw < 0
  · exact .inl ⟨h0, by simp [h0]⟩
  · by_cases h1 : 0xFFFFFFFF < (ref.toNat : Int) + seqDelta ref raw
    · exact .inr (.inl ⟨h1, by simp [h0, h1]⟩)
    · refine .inr (.inr ⟨BitVec.ofNat 32 ((ref.toNat : Int) + seqDelta ref raw).toNat, ?_, by simp [h0, h1]⟩)
      rw [BitVec.toNat_ofNat, Nat.mod_eq_of_lt (by omega)]
      omega

/-! ### Windows -/

@[simp] theorem byteAt_zero (w : Window) : byteAt w 0 = w[0] := by simp [byteAt]
@[simp] theorem byteAt_one (w : Window) : byteAt w 1 = w[1] := by simp [byteAt]
@[simp] theorem byteAt_two (w : Window) : byteAt w 2 = w[2] := by simp [byteAt]
@[simp] theorem byteAt_three (w : Window) : byteAt w 3 = w[3] := by simp [byteAt]
@[simp] theorem byteAt_four (w : Window) : byteAt w 4 = w[4] := by simp [byteAt]
@[simp] theorem byteAt_five (w : Window) : byteAt w 5 = w[5] := by simp [byteAt]

theorem byteAt_of_six_le (w : Window) {i : Nat} (h : 6 ≤ i) : byteAt w i = 0 := by
  simp [byteAt, Vector.getElem?_eq_none h]

/-- An available byte is read. -/
theorem readAvailable_of_lt {len i : Nat} (w : Window) (hl : i < len) (hi : i < 6) :
    readAvailable len w i = .ok (byteAt w i) := by
  simp [readAvailable, memRead, byteAt, hl, hi]

/-- A byte at or beyond `dec_len` is not read (spec/40_descriptor_decode.md R105). -/
theorem readAvailable_of_le {len i : Nat} (w : Window) (hl : len ≤ i) :
    readAvailable len w i = .error .truncated := by
  simp [readAvailable, memRead, Nat.not_lt.mpr hl]

/-- Everything a read can answer. -/
theorem readAvailable_cases (len : Nat) (w : Window) (i : Nat) :
    (i < len ∧ i < 6 ∧ readAvailable len w i = .ok (byteAt w i)) ∨
    ((len ≤ i ∨ 6 ≤ i) ∧ readAvailable len w i = .error .truncated) := by
  by_cases hl : i < len
  · by_cases hi : i < 6
    · exact .inl ⟨hl, hi, readAvailable_of_lt w hl hi⟩
    · refine .inr ⟨.inr (Nat.not_lt.mp hi), ?_⟩
      simp [readAvailable, memRead, hl, Vector.getElem?_eq_none (Nat.not_lt.mp hi)]
  · exact .inr ⟨.inl (Nat.not_lt.mp hl), readAvailable_of_le w (Nat.not_lt.mp hl)⟩

/-- A write shows at its own offset. -/
theorem byteAt_memWrite_same (w : Window) {i : Nat} (v : Byte) (hi : i < 6) : byteAt (memWrite w i v) i = v := by
  simp [byteAt, memWrite, hi]

/-- A write leaves every other offset alone. -/
theorem byteAt_memWrite_ne (w : Window) {i j : Nat} (v : Byte) (h : i ≠ j) :
    byteAt (memWrite w i v) j = byteAt w j := by
  simp [byteAt, memWrite, h]

/-- Two windows with the same six bytes are the same window. -/
theorem window_ext {w w' : Window} (h : ∀ i < 6, byteAt w i = byteAt w' i) : w = w' := by
  ext i hi
  have := h i hi
  simp [byteAt, hi] at this
  rw [this]

@[simp] theorem byteAt_windowOf (l : List Byte) {i : Nat} (hi : i < 6) : byteAt (windowOf l) i = l.getD i 0 := by
  match i, hi with
  | 0, _ | 1, _ | 2, _ | 3, _ | 4, _ | 5, _ => simp [windowOf]

/-! ### Results -/

@[simp] theorem ok_bind {ε α β : Type} (a : α) (f : α → Except ε β) : (Except.ok a >>= f) = f a := rfl
@[simp] theorem error_bind {ε α β : Type} (e : ε) (f : α → Except ε β) :
    ((Except.error e : Except ε α) >>= f) = .error e := rfl

/-- A computation that succeeds has a first part that succeeds. -/
theorem bind_eq_ok {ε α β : Type} {x : Except ε α} {f : α → Except ε β} {b : β} (h : (x >>= f) = .ok b) :
    ∃ a, x = .ok a ∧ f a = .ok b := by
  cases x with
  | ok a => exact ⟨a, rfl, h⟩
  | error e => cases h

@[simp] theorem checkReserved_clear (strict : Bool) : checkReserved strict false = .ok () := rfl
@[simp] theorem checkReserved_lenient (nonZero : Bool) : checkReserved false nonZero = .ok () := by
  cases nonZero <;> rfl
@[simp] theorem checkReserved_strict : checkReserved true true = .error .reservedBit := rfl

/-! ### The command port -/

theorem takeCommand_nil {s : State} (h : s.inbox = []) : takeCommand s = none := by
  simp [takeCommand, h]

theorem takeCommand_cons {s : State} {c : Command} {rest : List Command} (h : s.inbox = c :: rest) :
    takeCommand s = some (c, { s with inbox := rest }) := by
  simp [takeCommand, h]

end Sys2Proof.Machine
end

