-- ==== Sys2Proof/Laws/Codec.lean ====
section
/-! SUPPORT. What each stage of the decoder and the encoder does, said once, and the bits of each packed byte. -/

namespace Sys2Proof.Machine

/-! ### The decoder's stages -/

variable (len : Nat) (w : Window) (d : Descriptor) (off : Nat)

theorem decodePictureId_absent (h : d.pictureidPresent = false) : decodePictureId len w d off = .ok (d, off) := by
  simp [decodePictureId, h]

/-- Everything the picture-ID stage can answer where I = 1 (spec/40_descriptor_decode.md R103, R105). -/
theorem decodePictureId_present (h : d.pictureidPresent = true) (hoff : off + 1 < 6) :
    decodePictureId len w d off =
      if off < len then
        if bit (byteAt w off) 7 then
          if off + 1 < len then
            .ok ({ d with pictureId := pictureIdOf2 (byteAt w off) (byteAt w (off + 1)) }, off + 2)
          else .error .truncated
        else .ok ({ d with pictureId := pictureIdOf1 (byteAt w off) }, off + 1)
      else .error .truncated := by
  simp only [decodePictureId, h, if_true]
  by_cases h1 : off < len
  · rw [readAvailable_of_lt w h1 (by omega), ok_bind, if_pos h1]
    by_cases h2 : off + 1 < len
    · rw [readAvailable_of_lt w h2 hoff, if_pos h2]; rfl
    · rw [readAvailable_of_le w (Nat.not_lt.mp h2), if_neg h2]; rfl
  · rw [readAvailable_of_le w (Nat.not_lt.mp h1), if_neg h1]; rfl

theorem decodeTl0picidx_absent (h : d.tl0picidxPresent = false) : decodeTl0picidx len w d off = .ok (d, off) := by
  simp [decodeTl0picidx, h]

/-- Everything the TL0PICIDX stage can answer where L = 1 (R105, R108). -/
theorem decodeTl0picidx_present (h : d.tl0picidxPresent = true) (hoff : off < 6) :
    decodeTl0picidx len w d off =
      if off < len then .ok ({ d with tl0picidx := byteAt w off }, off + 1) else .error .truncated := by
  simp only [decodeTl0picidx, h, if_true]
  by_cases h1 : off < len
  · rw [readAvailable_of_lt w h1 hoff, if_pos h1]; rfl
  · rw [readAvailable_of_le w (Nat.not_lt.mp h1), if_neg h1]; rfl

theorem decodeTk_absent (ht : d.tidPresent = false) (hk : d.keyidxPresent = false) :
    decodeTk len w d off = .ok (d, off) := by
  simp [decodeTk, ht, hk]

/-- Everything the T/K stage can answer where T = 1 or K = 1 (R105, R108). -/
theorem decodeTk_present (h : (d.tidPresent || d.keyidxPresent) = true) (hoff : off < 6) :
    decodeTk len w d off =
      if off < len then .ok (unpackKeyidx (unpackTid d (byteAt w off)) (byteAt w off), off + 1)
      else .error .truncated := by
  simp only [decodeTk, h, if_true]
  by_cases h1 : off < len
  · rw [readAvailable_of_lt w h1 hoff, if_pos h1]; rfl
  · rw [readAvailable_of_le w (Nat.not_lt.mp h1), if_neg h1]; rfl

/-- An empty payload fails before anything is read (R105). -/
theorem decodeDescriptor_empty (strict : Bool) : decodeDescriptor strict 0 w = .error .truncated := by
  simp [decodeDescriptor, readAvailable_of_le w (Nat.le_refl 0)]

/-- Everything the decoder can answer where byte 0 is available (R101, R106). -/
theorem decodeDescriptor_of_pos (strict : Bool) (h : 0 < len) :
    decodeDescriptor strict len w =
      if bit w[0] 6 && strict then .error .reservedBit
      else if bit w[0] 7 then decodeExtension strict len w (unpackByte0 w[0])
      else .ok (unpackByte0 w[0], 1) := by
  simp only [decodeDescriptor, readAvailable_of_lt w h (by omega), ok_bind, byteAt_zero, checkReserved]
  cases bit w[0] 6 && strict <;> rfl

/-- Everything the extension can answer (R102, R106). -/
theorem decodeExtension_eq (strict : Bool) :
    decodeExtension strict len w d =
      if 1 < len then
        if w[1].extractLsb 3 0 != 0 && strict then .error .reservedBit
        else do
          let p ← decodePictureId len w (unpackByte1 d w[1]) 2
          let q ← decodeTl0picidx len w p.1 p.2
          decodeTk len w q.1 q.2
      else .error .truncated := by
  unfold decodeExtension
  by_cases h1 : 1 < len
  · rw [readAvailable_of_lt w h1 (by omega), if_pos h1]
    simp only [ok_bind, byteAt_one, checkReserved]
    cases w[1].extractLsb 3 0 != 0 && strict <;> rfl
  · rw [readAvailable_of_le w (Nat.not_lt.mp h1), if_neg h1]; rfl

/-! ### The packed bytes -/

section PackedBytes

variable (b7 b6 b5 b4 m y : Bool) (low : BitVec 4) (value : BitVec 7) (tid : BitVec 2) (keyidx : BitVec 5)

@[simp] theorem flagByte_bit7 : (flagByte b7 b6 b5 b4 low).getLsbD 7 = b7 := by
  revert b7 b6 b5 b4 low; decide
@[simp] theorem flagByte_bit6 : (flagByte b7 b6 b5 b4 low).getLsbD 6 = b6 := by
  revert b7 b6 b5 b4 low; decide
@[simp] theorem flagByte_bit5 : (flagByte b7 b6 b5 b4 low).getLsbD 5 = b5 := by
  revert b7 b6 b5 b4 low; decide
@[simp] theorem flagByte_bit4 : (flagByte b7 b6 b5 b4 low).getLsbD 4 = b4 := by
  revert b7 b6 b5 b4 low; decide
@[simp] theorem flagByte_low : (flagByte b7 b6 b5 b4 low).extractLsb 3 0 = low := by
  revert b7 b6 b5 b4 low; decide

@[simp] theorem pictureIdByte_m : (pictureIdByte m value).getLsbD 7 = m := by
  revert m value; decide
@[simp] theorem pictureIdByte_value : pictureIdBits (pictureIdByte m value) = value := by
  revert m value; decide
theorem pictureIdByte_toNat : (pictureIdByte m value).toNat = 128 * m.toNat + value.toNat := by
  revert m value; decide

@[simp] theorem tkByte_tid : (tkByte tid y keyidx).extractLsb 7 6 = tid := by
  revert tid y keyidx; decide
@[simp] theorem tkByte_y : (tkByte tid y keyidx).getLsbD 5 = y := by
  revert tid y keyidx; decide
@[simp] theorem tkByte_keyidx : (tkByte tid y keyidx).extractLsb 4 0 = keyidx := by
  revert tid y keyidx; decide
theorem tkByte_toNat : (tkByte tid y keyidx).toNat = 64 * tid.toNat + 32 * y.toNat + keyidx.toNat := by
  revert tid y keyidx; decide

end PackedBytes

theorem pictureIdBits_toNat (p0 : Byte) : (pictureIdBits p0).toNat = p0.toNat % 128 := by
  simp [pictureIdBits]

theorem pictureIdOf1_toNat (p0 : Byte) : (pictureIdOf1 p0).toNat = p0.toNat % 128 := by
  rw [pictureIdOf1, BitVec.toNat_setWidth, pictureIdBits_toNat]
  omega

theorem pictureIdOf2_toNat (p0 p1 : Byte) : (pictureIdOf2 p0 p1).toNat = 256 * (p0.toNat % 128) + p1.toNat := by
  have h : (pictureIdBits p0 ++ p1).toNat = 256 * (p0.toNat % 128) + p1.toNat := by
    rw [BitVec.toNat_append, Nat.shiftLeft_eq, Nat.mul_comm, ← Nat.two_pow_add_eq_or_of_lt p1.isLt,
      pictureIdBits_toNat]
  have := p1.isLt
  rw [pictureIdOf2, BitVec.toNat_setWidth, h]
  omega

/-- A picture ID of at most 15 bits survives the 2-byte form (spec/41_descriptor_encode.md R135, R139). -/
theorem pictureIdOf2_pack (p : Half) (h : p ≤ 0x7FFF) :
    pictureIdOf2 (packPictureIdHigh p) (packPictureIdLow p) = p := by
  have h' : p.toNat ≤ 0x7FFF := h
  apply BitVec.eq_of_toNat_eq
  rw [pictureIdOf2_toNat, packPictureIdHigh, pictureIdByte_toNat, packPictureIdLow]
  simp only [BitVec.extractLsb_toNat, Bool.toNat_true, Nat.shiftRight_eq_div_pow]
  omega

/-- A picture ID of at most 127 survives the 1-byte form (R135, R139). -/
theorem pictureIdOf1_pack (p : Half) (h : p ≤ 127) : pictureIdOf1 (packPictureId1 p) = p := by
  have h' : p.toNat ≤ 127 := h
  apply BitVec.eq_of_toNat_eq
  rw [pictureIdOf1_toNat, packPictureId1, pictureIdByte_toNat]
  simp only [BitVec.extractLsb_toNat, Bool.toNat_false, Nat.shiftRight_eq_div_pow]
  omega

/-! ### The encoder's stages -/

section Encoder

variable (d : Descriptor) (out : Window) (n : Nat)

theorem emit_eq (v : Byte) : emit v (out, n) = (memWrite out n v, n + 1) := rfl

theorem emitPictureId_absent (h : d.pictureidPresent = false) : emitPictureId d (out, n) = (out, n) := by
  simp [emitPictureId, h]

/-- The 1-byte form (R135). -/
theorem emitPictureId_short (h : d.pictureidPresent = true) (hs : d.pictureId ≤ 127) :
    emitPictureId d (out, n) = (memWrite out n (packPictureId1 d.pictureId), n + 1) := by
  rw [emitPictureId, if_pos h, if_pos hs, emit]

/-- The 2-byte form (R135). -/
theorem emitPictureId_long (h : d.pictureidPresent = true) (hl : ¬ d.pictureId ≤ 127) :
    emitPictureId d (out, n) =
      (memWrite (memWrite out n (packPictureIdHigh d.pictureId)) (n + 1) (packPictureIdLow d.pictureId), n + 2) := by
  rw [emitPictureId, if_pos h, if_neg hl]
  rfl

theorem emitTl0picidx_eq :
    emitTl0picidx d (out, n) = if d.tl0picidxPresent then (memWrite out n d.tl0picidx, n + 1) else (out, n) := rfl

theorem emitTk_eq :
    emitTk d (out, n) =
      if d.tidPresent || d.keyidxPresent then (memWrite out n (packTk d), n + 1) else (out, n) := rfl

/-- Everything the encoder can answer (R130, R131). -/
theorem encodeDescriptor_cases :
    (fieldOutOfRange d = true ∧ encodeDescriptor d = .error .fieldRange) ∨
    (fieldOutOfRange d = false ∧
      encodeDescriptor d = .ok (emitExtension d (memWrite Window.zero 0 (packByte0 d), 1))) := by
  cases h : fieldOutOfRange d with
  | true => exact .inl ⟨rfl, by simp [encodeDescriptor, h]⟩
  | false => exact .inr ⟨rfl, by simp [encodeDescriptor, h, emit]⟩

end Encoder

end Sys2Proof.Machine
end

