-- ==== Sys2Proof/Laws/Decode.lean ====
section
/-! SUPPORT. What each row of the opcode map selects (spec/30_encoding.md R62), and what `decode` answers for each op. -/

namespace Sys2Proof

theorem OpcodeRow.pdDec_selects (op : Op) : OpcodeRow.pdDec.selects op = true ↔ op = 1 := by revert op; decide
theorem OpcodeRow.pdEnc_selects (op : Op) : OpcodeRow.pdEnc.selects op = true ↔ op = 2 := by revert op; decide
theorem OpcodeRow.seqNext_selects (op : Op) : OpcodeRow.seqNext.selects op = true ↔ op = 3 := by revert op; decide
theorem OpcodeRow.seqReset_selects (op : Op) : OpcodeRow.seqReset.selects op = true ↔ op = 4 := by revert op; decide

/-- Everything the decoder can answer, by op. -/
theorem decode_cases (c : Command) :
    (c.op = 1 ∧ decode c = .ok (.pdDec c.decLen c.decWin)) ∨
    (c.op = 2 ∧ decode c = .ok (.pdEnc c.encDesc)) ∨
    (c.op = 3 ∧ decode c = .ok (.seqNext c.seqRaw)) ∨
    (c.op = 4 ∧ decode c = .ok .seqReset) ∨
    (c.op ≠ 1 ∧ c.op ≠ 2 ∧ c.op ≠ 3 ∧ c.op ≠ 4 ∧ decode c = .error (.reservedOp c.op)) := by
  simp only [decode, OpcodeRow.pdDec_selects, OpcodeRow.pdEnc_selects, OpcodeRow.seqNext_selects,
    OpcodeRow.seqReset_selects]
  by_cases h1 : c.op = 1
  · exact .inl ⟨h1, by rw [if_pos h1]⟩
  · by_cases h2 : c.op = 2
    · exact .inr (.inl ⟨h2, by rw [if_neg h1, if_pos h2]⟩)
    · by_cases h3 : c.op = 3
      · exact .inr (.inr (.inl ⟨h3, by rw [if_neg h1, if_neg h2, if_pos h3]⟩))
      · by_cases h4 : c.op = 4
        · exact .inr (.inr (.inr (.inl ⟨h4, by rw [if_neg h1, if_neg h2, if_neg h3, if_pos h4]⟩)))
        · exact .inr (.inr (.inr (.inr ⟨h1, h2, h3, h4, by rw [if_neg h1, if_neg h2, if_neg h3, if_neg h4]⟩)))

end Sys2Proof
end

