-- ==== Sys2Proof/Laws/State.lean ====
section
/-! SUPPORT. Field by field, what the updates of State leave: no later proof unfolds a record update. -/

namespace Sys2Proof.Machine

variable (s : State)

@[simp] theorem State.setTracker_cfg (r : Word) (b : Bool) : (s.setTracker r b).cfg = s.cfg := rfl
@[simp] theorem State.setTracker_refCseq (r : Word) (b : Bool) : (s.setTracker r b).refCseq = r := rfl
@[simp] theorem State.setTracker_initialized (r : Word) (b : Bool) : (s.setTracker r b).initialized = b := rfl
@[simp] theorem State.setTracker_inbox (r : Word) (b : Bool) : (s.setTracker r b).inbox = s.inbox := rfl
@[simp] theorem State.setTracker_resp (r : Word) (b : Bool) : (s.setTracker r b).resp = s.resp := rfl

@[simp] theorem State.respond_cfg (r : Response) : (s.respond r).cfg = s.cfg := rfl
@[simp] theorem State.respond_refCseq (r : Response) : (s.respond r).refCseq = s.refCseq := rfl
@[simp] theorem State.respond_initialized (r : Response) : (s.respond r).initialized = s.initialized := rfl
@[simp] theorem State.respond_inbox (r : Response) : (s.respond r).inbox = s.inbox := rfl
@[simp] theorem State.respond_resp (r : Response) : (s.respond r).resp = some r := rfl
@[simp] theorem State.respond_respond (r q : Response) : (s.respond r).respond q = s.respond q := rfl

@[simp] theorem State.raise_cfg (a : Status) (b : Reason) : (s.raise a b).cfg = s.cfg := rfl
@[simp] theorem State.raise_refCseq (a : Status) (b : Reason) : (s.raise a b).refCseq = s.refCseq := rfl
@[simp] theorem State.raise_initialized (a : Status) (b : Reason) : (s.raise a b).initialized = s.initialized := rfl
@[simp] theorem State.raise_inbox (a : Status) (b : Reason) : (s.raise a b).inbox = s.inbox := rfl
@[simp] theorem State.raise_resp (a : Status) (b : Reason) :
    (s.raise a b).resp = some { status := a, reason := b } := rfl

@[simp] theorem State.acceptSequence_cfg (e : Word) : (s.acceptSequence e).cfg = s.cfg := rfl
@[simp] theorem State.acceptSequence_refCseq (e : Word) : (s.acceptSequence e).refCseq = e := rfl
@[simp] theorem State.acceptSequence_initialized (e : Word) : (s.acceptSequence e).initialized = true := rfl
@[simp] theorem State.acceptSequence_inbox (e : Word) : (s.acceptSequence e).inbox = s.inbox := rfl
@[simp] theorem State.acceptSequence_resp (e : Word) :
    (s.acceptSequence e).resp = some { status := .ok, ext := e } := rfl

@[simp] theorem presentNext_cfg (c : Command) : (presentNext s c).cfg = s.cfg := rfl
@[simp] theorem presentNext_refCseq (c : Command) : (presentNext s c).refCseq = s.refCseq := rfl
@[simp] theorem presentNext_initialized (c : Command) : (presentNext s c).initialized = s.initialized := rfl
@[simp] theorem presentNext_inbox (c : Command) : (presentNext s c).inbox = c :: s.inbox := rfl
@[simp] theorem presentNext_resp (c : Command) : (presentNext s c).resp = s.resp := rfl

@[simp] theorem State.withProgram_cfg (cs : List Command) : (s.withProgram cs).cfg = s.cfg := rfl
@[simp] theorem State.withProgram_refCseq (cs : List Command) : (s.withProgram cs).refCseq = s.refCseq := rfl
@[simp] theorem State.withProgram_initialized (cs : List Command) :
    (s.withProgram cs).initialized = s.initialized := rfl
@[simp] theorem State.withProgram_inbox (cs : List Command) : (s.withProgram cs).inbox = cs := rfl
@[simp] theorem State.withProgram_resp (cs : List Command) : (s.withProgram cs).resp = s.resp := rfl

@[simp] theorem idle_eq : idle s = s := rfl
@[simp] theorem rejectCommand_eq (e : DecodeError) : rejectCommand e s = s.raise .illegalOp .none := by
  cases e; rfl

end Sys2Proof.Machine
end

