-- ==== Sys2Proof/Laws/Exec.lean ====
section
/-! SUPPORT. What each meaning, `exec` and `step` can do, said once: later proofs cite these instead of unfolding them. -/

namespace Sys2Proof.Machine

/-- Everything PD.DEC can do. -/
theorem exec_pdDec_cases (len : Nat) (w : Window) (s : State) :
    (∃ d n, decodeDescriptor s.cfg.strict len w = .ok (d, n) ∧
      exec (.pdDec len w) s = .next (s.respond { status := .ok, desc := d, consumed := BitVec.ofNat 3 n })) ∨
    ∃ r, decodeDescriptor s.cfg.strict len w = .error r ∧
      exec (.pdDec len w) s = .next (s.raise .invalidPayloadDescriptor r) := by
  cases h : decodeDescriptor s.cfg.strict len w with
  | ok p => exact .inl ⟨p.1, p.2, rfl, by simp [exec, execPdDec, h]⟩
  | error r => exact .inr ⟨r, rfl, by simp [exec, execPdDec, h]⟩

/-- Everything PD.ENC can do. -/
theorem exec_pdEnc_cases (d : Descriptor) (s : State) :
    (∃ out n, encodeDescriptor d = .ok (out, n) ∧
      exec (.pdEnc d) s = .next (s.respond { status := .ok, out := out, outLen := BitVec.ofNat 3 n })) ∨
    ∃ r, encodeDescriptor d = .error r ∧
      exec (.pdEnc d) s = .next (s.raise .contractViolation r) := by
  cases h : encodeDescriptor d with
  | ok p => exact .inl ⟨p.1, p.2, rfl, by simp [exec, execPdEnc, h]⟩
  | error r => exact .inr ⟨r, rfl, by simp [exec, execPdEnc, h]⟩

/-- Everything SEQ.NEXT can do. -/
theorem exec_seqNext_cases (raw : Half) (s : State) :
    (s.initialized = false ∧ exec (.seqNext raw) s = .next (s.acceptSequence (raw.setWidth 32))) ∨
    (s.initialized = true ∧ ∃ e : Word, (e.toNat : Int) = (s.refCseq.toNat : Int) + seqDelta s.refCseq raw ∧
      exec (.seqNext raw) s = .next (s.acceptSequence e)) ∨
    (s.initialized = true ∧ (s.refCseq.toNat : Int) + seqDelta s.refCseq raw < 0 ∧
      exec (.seqNext raw) s = .next (s.raise .invalidPayloadDescriptor .seqUnderflow)) ∨
    (s.initialized = true ∧ 0xFFFFFFFF < (s.refCseq.toNat : Int) + seqDelta s.refCseq raw ∧
      exec (.seqNext raw) s = .next (s.raise .invalidPayloadDescriptor .seqOverflow)) := by
  cases hb : s.initialized with
  | false => exact .inl ⟨rfl, by simp [exec, execSeqNext, hb]⟩
  | true =>
    obtain ⟨h, he⟩ | ⟨h, he⟩ | ⟨e, h, he⟩ := extendSequence_cases s.refCseq raw
    · exact .inr (.inr (.inl ⟨rfl, h, by simp [exec, execSeqNext, hb, he]⟩))
    · exact .inr (.inr (.inr ⟨rfl, h, by simp [exec, execSeqNext, hb, he]⟩))
    · exact .inr (.inl ⟨rfl, e, h, by simp [exec, execSeqNext, hb, he]⟩)

theorem exec_seqReset (s : State) : exec .seqReset s = .next ((s.setTracker 0 false).respond { status := .ok }) := rfl

/-- What every command leaves alone, and that every command responds. -/
theorem exec_frame (i : Instr) (s : State) :
    ∃ t r, exec i s = .next t ∧ t.cfg = s.cfg ∧ t.inbox = s.inbox ∧ t.resp = some r := by
  cases i with
  | pdDec len w =>
    obtain ⟨d, n, -, h⟩ | ⟨r, -, h⟩ := exec_pdDec_cases len w s <;> exact ⟨_, _, h, rfl, rfl, rfl⟩
  | pdEnc d =>
    obtain ⟨o, n, -, h⟩ | ⟨r, -, h⟩ := exec_pdEnc_cases d s <;> exact ⟨_, _, h, rfl, rfl, rfl⟩
  | seqNext raw =>
    obtain ⟨-, h⟩ | ⟨-, e, -, h⟩ | ⟨-, -, h⟩ | ⟨-, -, h⟩ := exec_seqNext_cases raw s <;>
      exact ⟨_, _, h, rfl, rfl, rfl⟩
  | seqReset => exact ⟨_, _, exec_seqReset s, rfl, rfl, rfl⟩

/-- Everything a step can do. -/
theorem step_cases (s : State) :
    (s.inbox = [] ∧ step s = .next s) ∨
    (∃ c rest i, s.inbox = c :: rest ∧ decode c = .ok i ∧ step s = exec i { s with inbox := rest }) ∨
    ∃ c rest e, s.inbox = c :: rest ∧ decode c = .error e ∧
      step s = .next (State.raise { s with inbox := rest } .illegalOp .none) := by
  cases hs : s.inbox with
  | nil => exact .inl ⟨rfl, by simp [step, takeCommand_nil hs]⟩
  | cons c rest =>
    cases hd : decode c with
    | ok i => exact .inr (.inl ⟨c, rest, i, rfl, hd, by simp [step, takeCommand_cons hs, hd]⟩)
    | error e => exact .inr (.inr ⟨c, rest, e, rfl, hd, by simp [step, takeCommand_cons hs, hd]⟩)

end Sys2Proof.Machine
end

