-- ==== Sys2Proof/Laws/PerInstr.lean ====
section
/-! SUPPORT. One statement per instruction as syntax: the family `OpcodeSelects`. -/

namespace Sys2Proof.Laws.OpcodeSelects

/-- The instruction's transaction carries an op that its own row of the opcode map selects, and no other row does
(spec/30_encoding.md R62). -/
def Statement (i : Instr) : Prop :=
  opcodeTable.filter (fun r => r.selects (encode i).op) = [i.row]

theorem pdDec (decLen : Nat) (decWin : Window) : Statement (.pdDec decLen decWin) := by
  simp only [Statement, encode, Instr.row]
  decide

theorem pdEnc (encDesc : Descriptor) : Statement (.pdEnc encDesc) := by
  simp only [Statement, encode, Instr.row]
  decide

theorem seqNext (seqRaw : Half) : Statement (.seqNext seqRaw) := by
  simp only [Statement, encode, Instr.row]
  decide

theorem seqReset : Statement .seqReset := by
  simp only [Statement, encode, Instr.row]
  decide

end Sys2Proof.Laws.OpcodeSelects
end

