-- ==== Sys2Proof/Machine/Assembler.lean ====
section
/-! DEFINITION. The assembler syntax in which the spec writes its programs (spec/30_encoding.md R65): text to
instruction. It has no effect on the block (92_eei_decisions.md D3). Text is a list of characters. -/

namespace Sys2Proof.Machine

/-- A token of the syntax: a mnemonic or field name, a number, or a punctuation mark. -/
inductive AsmToken where
  | word (text : List Char)
  | number (n : Nat)
  | mark (c : Char)
deriving DecidableEq, Repr

/-- The opening brace of a Descriptor. -/
def openBrace : Char := Char.ofNat 123

/-- The closing brace of a Descriptor. -/
def closeBrace : Char := Char.ofNat 125

/-- The value of a digit in base 10 or 16. -/
def digitValue (base : Nat) (c : Char) : Option Nat :=
  let n := c.toNat
  let v := if 48 ≤ n && n ≤ 57 then n - 48
    else if 65 ≤ n && n ≤ 70 then n - 55
    else if 97 ≤ n && n ≤ 102 then n - 87
    else 16
  if v < base then some v else none

/-- The value of a run of digits, most significant first, after what stands before it. -/
def digitsValue (base : Nat) : Nat → List Char → Option Nat
  | acc, [] => some acc
  | acc, c :: cs =>
    match digitValue base c with
    | some v => digitsValue base (acc * base + v) cs
    | none => none

/-- Numbers are decimal, or hexadecimal with the prefix `0x`. -/
def numberToken (text : List Char) : Option AsmToken :=
  match text with
  | '0' :: 'x' :: c :: cs => (digitsValue 16 0 (c :: cs)).map .number
  | _ => (digitsValue 10 0 text).map .number

/-- A run of letters, digits and dots: a number if it starts with a digit. -/
def runToken (text : List Char) : Option AsmToken :=
  match text with
  | [] => none
  | c :: _ => if c.isDigit then numberToken text else some (.word text)

/-- Put the token of a finished run, if there is one, before the tokens after it. -/
def closeRun (run : List Char) (rest : Option (List AsmToken)) : Option (List AsmToken) :=
  match run with
  | [] => rest
  | _ =>
    match runToken run.reverse, rest with
    | some t, some ts => some (t :: ts)
    | _, _ => none

/-- The tokens of one line; `run` is the run being read, its last character first. A semicolon starts a comment. -/
def tokens : List Char → List Char → Option (List AsmToken)
  | [], run => closeRun run (some [])
  | c :: cs, run =>
    if c.isAlphanum || c == '.' then tokens cs (c :: run)
    else if c == ';' then closeRun run (some [])
    else if c == ' ' then closeRun run (tokens cs [])
    else if c == ',' || c == '[' || c == ']' || c == '=' || c == openBrace || c == closeBrace then
      closeRun run ((tokens cs []).map (AsmToken.mark c :: ·))
    else none

/-- The rest of a window's list of bytes, up to its closing bracket. -/
def windowBytes : List AsmToken → Option (List Byte)
  | [.number n, .mark ']'] => if n < 256 then some [BitVec.ofNat 8 n] else none
  | .number n :: .mark ',' :: rest =>
    if n < 256 then (windowBytes rest).map (BitVec.ofNat 8 n :: ·) else none
  | _ => none

/-- A list of at most six bytes as a window: a byte that is not listed is 0. -/
def listedWindow (bytes : List Byte) : Option Window :=
  if bytes.length ≤ 6 then some (windowOf bytes) else none

/-- Set a one-bit field. -/
def setFlag (n : Nat) (set : Bool → Descriptor) : Option Descriptor :=
  if n < 2 then some (set (n == 1)) else none

/-- Set a u8 field. -/
def setByte (n : Nat) (set : Byte → Descriptor) : Option Descriptor :=
  if n < 256 then some (set (BitVec.ofNat 8 n)) else none

/-- Set one field of a Descriptor by its name in R65, if the value fits the field's port width (R61). -/
def setField (d : Descriptor) (name : List Char) (n : Nat) : Option Descriptor :=
  if name = ['X'] then setFlag n fun b => { d with extendedControlBitsPresent := b }
  else if name = ['N'] then setFlag n fun b => { d with nonReferenceFrame := b }
  else if name = ['S'] then setFlag n fun b => { d with startOfPartition := b }
  else if name = ['P', 'I', 'D'] then setByte n fun b => { d with pid := b }
  else if name = ['I'] then setFlag n fun b => { d with pictureidPresent := b }
  else if name = ['P', 'I', 'C', 'I', 'D'] then
    if n < 65536 then some { d with pictureId := BitVec.ofNat 16 n } else none
  else if name = ['L'] then setFlag n fun b => { d with tl0picidxPresent := b }
  else if name = ['T', 'L', '0'] then setByte n fun b => { d with tl0picidx := b }
  else if name = ['T'] then setFlag n fun b => { d with tidPresent := b }
  else if name = ['T', 'I', 'D'] then setByte n fun b => { d with tid := b }
  else if name = ['Y'] then setFlag n fun b => { d with layerSync := b }
  else if name = ['K'] then setFlag n fun b => { d with keyidxPresent := b }
  else if name = ['K', 'E', 'Y', 'I', 'D', 'X'] then setByte n fun b => { d with keyidx := b }
  else none

/-- The rest of a Descriptor's list of fields, up to its closing brace. -/
def descriptorFields : List AsmToken → Descriptor → Option Descriptor
  | [.word name, .mark '=', .number n, .mark c], d => if c = closeBrace then setField d name n else none
  | .word name :: .mark '=' :: .number n :: .mark ',' :: rest, d =>
    match setField d name n with
    | some d' => descriptorFields rest d'
    | none => none
  | _, _ => none

/-- The operands of each mnemonic (R65). -/
def assembleTokens : List AsmToken → Option Instr
  | [.word name] => if name = "SEQ.RESET".toList then some .seqReset else none
  | [.word name, .number n] =>
    if name = "SEQ.NEXT".toList && decide (n < 65536) then some (.seqNext (BitVec.ofNat 16 n)) else none
  | .word name :: .number len :: .mark ',' :: .mark '[' :: rest =>
    if name = "PD.DEC".toList then
      match (if rest = [.mark ']'] then some [] else windowBytes rest) with
      | some bytes => (listedWindow bytes).map (.pdDec len ·)
      | none => none
    else none
  | .word name :: .mark c :: rest =>
    if name = "PD.ENC".toList && c == openBrace then
      if rest = [.mark closeBrace] then some (.pdEnc Descriptor.zero)
      else (descriptorFields rest Descriptor.zero).map .pdEnc
    else none
  | _ => none

/-- One line of assembly to its instruction. -/
def assemble (line : List Char) : Option Instr :=
  match tokens line [] with
  | some ts => assembleTokens ts
  | none => none

/-- A program, one line per command, to the commands the host issues. -/
def assembleProgram : List (List Char) → Option (List Command)
  | [] => some []
  | line :: rest =>
    match assemble line, assembleProgram rest with
    | some i, some cs => some (encode i :: cs)
    | _, _ => none

end Sys2Proof.Machine
end

