-- ==== Sys2Proof/Tests/Slice0.lean ====
section
/-! SUPPORT. Tests whose expected results are the spec's own words and vectors (spec/95_test_vectors.md), the smoke tests
of the well-formedness checks, and for every statement with hypotheses a state and operands that meet them. -/

namespace Sys2Proof.Tests

open Sys2Proof Sys2Proof.Machine

/-- A small state: the instance's `STRICT` and the tracker. -/
def st (strict : Bool) (ref : Word) (init : Bool) : State :=
  { cfg := { strict := strict, lenBits := 11, latency := 0 }, refCseq := ref, initialized := init, inbox := [],
    resp := none }

/-- The response an outcome leaves on the port. -/
def respOf : Host.Outcome State Fault Refusal → Option Response
  | .next t => t.resp
  | .fault _ => none
  | .refused _ => none

/-- The tracker an outcome leaves. -/
def trackerOf : Host.Outcome State Fault Refusal → Option (Word × Bool)
  | .next t => some (t.refCseq, t.initialized)
  | .fault _ => none
  | .refused _ => none

theorem answers {o : Host.Outcome State Fault Refusal} {r : Response} (h : respOf o = some r) :
    ∃ t : State, o = .next t ∧ t.resp = some r := by
  cases o with
  | next t => exact ⟨t, rfl, h⟩
  | fault f => cases h
  | refused f => cases h

/-! ### Decoding: one word per instruction (30_encoding.md, op in bits 3 to 0) -/

theorem test_decode_pdDec :
    decode { op := 0b0001, decLen := 3, decWin := #v[0x90, 0x80, 0x05, 0, 0, 0] } =
      .ok (.pdDec 3 #v[0x90, 0x80, 0x05, 0, 0, 0]) := by decide
theorem test_decode_pdEnc :
    decode { op := 0b0010, encDesc := { startOfPartition := true, pictureidPresent := true, pictureId := 5 } } =
      .ok (.pdEnc { startOfPartition := true, pictureidPresent := true, pictureId := 5 }) := by decide
theorem test_decode_seqNext : decode { op := 0b0011, seqRaw := 0xFFFE } = .ok (.seqNext 0xFFFE) := by decide
theorem test_decode_seqReset : decode { op := 0b0100 } = .ok .seqReset := by decide
theorem test_decode_reserved : decode { op := 0b0111, seqRaw := 9 } = .error (.reservedOp 7) := by decide
theorem test_opcode_rows_do_not_overlap :
    opcodeTable.Pairwise (fun a b => ∀ op : Op, ¬ (a.selects op = true ∧ b.selects op = true)) := by decide
theorem test_fetch_word_runs :
    respOf (step (State.reset.withFetchWord 8 0x04)) = some { status := .ok } := by decide

/-! ### Well-formedness: an ill-formed term for each check -/

theorem test_wf_full : ({ extendedControlBitsPresent := true, pid := 15, pictureidPresent := true, pictureId := 0x7FFF
                          tl0picidxPresent := true, tl0picidx := 255, tidPresent := true, tid := 3, layerSync := true
                          keyidxPresent := true, keyidx := 31 } : Descriptor).wellFormed = true := by decide
theorem test_wf_refuses_pid : ({ pid := 16 } : Descriptor).wellFormed = false := by decide
theorem test_wf_refuses_flags : ({ extendedControlBitsPresent := true } : Descriptor).wellFormed = false := by decide
theorem test_wf_refuses_pictureId :
    ({ extendedControlBitsPresent := true, pictureidPresent := true, pictureId := 0x8000 } : Descriptor).wellFormed =
      false := by decide
theorem test_wf_refuses_absent_pictureId : ({ pictureId := 1 } : Descriptor).wellFormed = false := by decide
theorem test_wf_refuses_absent_tl0 : ({ tl0picidx := 1 } : Descriptor).wellFormed = false := by decide
theorem test_wf_refuses_tid :
    ({ extendedControlBitsPresent := true, tidPresent := true, tid := 4 } : Descriptor).wellFormed = false := by decide
theorem test_wf_refuses_absent_layerSync : ({ layerSync := true } : Descriptor).wellFormed = false := by decide
theorem test_wf_refuses_keyidx :
    ({ extendedControlBitsPresent := true, keyidxPresent := true, keyidx := 32 } : Descriptor).wellFormed = false := by
  decide
theorem test_wf_refuses_wide_length :
    Instr.wellFormed { strict := true, lenBits := 3, latency := 0 } (.pdDec 8 Window.zero) = false := by decide
theorem test_wf_refuses_narrow_port :
    Config.wellFormed { strict := true, lenBits := 2, latency := 0 } = false := by decide

/-! ### Each instruction, on vectors of 95_test_vectors.md -/

/-- DV27: every field, strict. -/
theorem test_pdDec_every_field :
    respOf (exec (.pdDec 6 #v[0xBF, 0xF0, 0x81, 0x2C, 0x07, 0xBF]) (st true 7 true)) = some
      { status := .ok, consumed := 6
        desc := { extendedControlBitsPresent := true, nonReferenceFrame := true, startOfPartition := true, pid := 15
                  pictureidPresent := true, pictureId := 300, tl0picidxPresent := true, tl0picidx := 7
                  tidPresent := true, tid := 2, layerSync := true, keyidxPresent := true, keyidx := 31 } } := by decide

/-- DV12: K only, the TID and Y bits are ignored. -/
theorem test_pdDec_keyidx_only :
    respOf (exec (.pdDec 3 #v[0x80, 0x10, 0xE5, 0, 0, 0]) (st true 7 true)) = some
      { status := .ok, consumed := 3
        desc := { extendedControlBitsPresent := true, keyidxPresent := true, keyidx := 5 } } := by decide

/-- EV7: every field. -/
theorem test_pdEnc_every_field :
    respOf (exec (.pdEnc { nonReferenceFrame := true, startOfPartition := true, pid := 3, pictureidPresent := true
                           pictureId := 300, tl0picidxPresent := true, tl0picidx := 7, tidPresent := true, tid := 2
                           layerSync := true, keyidxPresent := true, keyidx := 31 }) (st true 7 true)) =
      some { status := .ok, out := #v[0xB3, 0xF0, 0x81, 0x2C, 0x07, 0xBF], outLen := 6 } := by decide

/-- EV13: T with K = 0, KEYIDX is written as 0. -/
theorem test_pdEnc_tid_only :
    respOf (exec (.pdEnc { tidPresent := true, tid := 3, layerSync := true, keyidx := 9 }) (st true 7 true)) =
      some { status := .ok, out := #v[0x80, 0x20, 0xE0, 0, 0, 0], outLen := 3 } := by decide

/-- SV8: a difference of 32767 after 40000 goes forward, past the wrap. -/
theorem test_seqNext_wraps_forward :
    trackerOf (exec (.seqNext 7231) (st false 40000 true)) = some (72767, true) := by decide

/-- SV12: the top of the range. -/
theorem test_seqNext_overflow :
    respOf (exec (.seqNext 0) (st false 0xFFFFFFFF true)) =
      some { status := .invalidPayloadDescriptor, reason := .seqOverflow } := by decide

/-- SV16. -/
theorem test_seqReset : trackerOf (exec .seqReset (st false 70000 true)) = some (0, false) := by decide

/-- SV17: idempotent on a state that is already reset. -/
theorem test_seqReset_again : trackerOf (exec .seqReset (st false 0 false)) = some (0, false) := by decide

/-- XV2: a reserved op with operands. -/
theorem test_reserved_op :
    respOf (step ((st false 500 true).withProgram [{ op := 7, decLen := 3, seqRaw := 9 }])) =
      some { status := .illegalOp } := by decide

/-! ### The assembler syntax, on lines of 95_test_vectors.md -/

theorem test_assemble_pdDec :
    assemble "PD.DEC 1000, [0x90, 0x80, 0x05] ; P1 step 2".toList =
      some (.pdDec 1000 #v[0x90, 0x80, 0x05, 0, 0, 0]) := by decide
theorem test_assemble_pdEnc :
    assemble ("PD.ENC ".toList ++ [openBrace] ++ "N=1, PID=3, PICID=0x012C".toList ++ [closeBrace]) =
      some (.pdEnc { nonReferenceFrame := true, pid := 3, pictureId := 300 }) := by decide
theorem test_assemble_tracker :
    assembleProgram ["SEQ.RESET".toList, "SEQ.NEXT 65534".toList] =
      some [{ op := 4 }, { op := 3, seqRaw := 0xFFFE }] := by decide
theorem test_assemble_refuses_wide_raw : assemble "SEQ.NEXT 65536".toList = none := by decide

/-! ### Witnesses: states and operands that meet the hypotheses of the statements -/

/-- P3 step 8: a reserved op among valid commands. -/
def prog : List Command := [encode (.seqNext 100), { op := 9 }, encode .seqReset]

theorem witness_StepRunsDecodedCommand :
    ((st false 0 false).withProgram prog).inbox = encode (.seqNext 100) :: prog.tail ∧
    decode (encode (.seqNext 100)) = .ok (.seqNext 100) := by decide
theorem witness_IdleStepHoldsState : (st false 5 true).inbox = [] := by decide
theorem witness_ReservedOpAnswersIllegalOp_low :
    ((st false 5 true).withProgram [{ op := 0 }]).inbox = [{ op := 0 }] ∧
    (({ op := 0 } : Command).op = 0 ∨ 5 ≤ ({ op := 0 } : Command).op.toNat) := by decide
theorem witness_ReservedOpAnswersIllegalOp_high :
    ((st false 5 true).withProgram [{ op := 5 }]).inbox = [{ op := 5 }] ∧
    (({ op := 5 } : Command).op = 0 ∨ 5 ≤ ({ op := 5 } : Command).op.toNat) := by decide
theorem witness_CommandRoundTrip : decode { op := 3, seqRaw := 0xFFFF, decLen := 4 } = .ok (.seqNext 0xFFFF) := by decide
theorem witness_UnusedOperandFieldsIgnored :
    let c : Command := { op := 1, decLen := 6, seqRaw := 3 }
    let c' : Command := { op := 1, decLen := 6, seqRaw := 4, encDesc := { pid := 9 } }
    c.op = c'.op ∧ (c.op = 1 → c.decLen = c'.decLen ∧ c.decWin = c'.decWin) ∧
    (c.op = 2 → c.encDesc = c'.encDesc) ∧ (c.op = 3 → c.seqRaw = c'.seqRaw) ∧ c ≠ c' := by decide
theorem witness_CommandsPerformedInOrder :
    ((st false 0 false).withProgram prog).inbox = [encode (.seqNext 100)] ++ { op := 9 } :: [encode .seqReset] := by
  decide
theorem witness_ParametersNeverChange :
    ∃ t : State, step ((st true 0 false).withProgram prog) = .next t ∧
      t.resp = some { status := .ok, ext := 100 } := answers (by decide)
theorem witness_WidthAndLatencyNeverMatter :
    ∃ t : State, step ((st true 0 false).withProgram [encode (.pdDec 6 Window.zero)]) = .next t ∧
      t.resp = some { status := .ok, consumed := 1 } := answers (by decide)

/-- The window of DV27: DescLen 6, no reserved bit. -/
def wFull : Window := #v[0xBF, 0xF0, 0x81, 0x2C, 0x07, 0xBF]

theorem witness_DecodeCompletes_strict :
    wireLen wFull ≤ 6 ∧ ((st true 0 false).cfg.strict = true →
      wFull[0].getLsbD 6 = false ∧ (wireX wFull = true → wFull[1] &&& 0x0F = 0)) := by decide
theorem witness_DecodeCompletes_not_strict :
    wireLen (#v[0x40, 0, 0, 0, 0, 0] : Window) ≤ 1 ∧ ((st false 0 false).cfg.strict = true →
      (#v[0x40, 0, 0, 0, 0, 0] : Window)[0].getLsbD 6 = false ∧
      (wireX (#v[0x40, 0, 0, 0, 0, 0] : Window) = true → (#v[0x40, 0, 0, 0, 0, 0] : Window)[1] &&& 0x0F = 0)) := by
  decide
theorem witness_TruncationCheckedBeforeEveryRead_truncated :
    5 < wireLen wFull ∧
    ((st true 0 false).cfg.strict = true → 1 ≤ 5 → wFull[0].getLsbD 6 = false) ∧
    ((st true 0 false).cfg.strict = true → 2 ≤ 5 → wireX wFull = true → wFull[1] &&& 0x0F = 0) := by decide
theorem witness_TruncationCheckedBeforeEveryRead_ok :
    ∃ t : State, exec (.pdDec 1 #v[0x10, 0xFF, 0xFF, 0xFF, 0xFF, 0xFF]) (st true 0 false) = .next t ∧
      t.resp = some { status := .ok, desc := { startOfPartition := true }, consumed := 1 } := answers (by decide)
theorem witness_TruncationCheckedBeforeEveryRead_windows :
    (∀ i < 5, byteAt wFull i = byteAt (#v[0xBF, 0xF0, 0x81, 0x2C, 0x07, 0] : Window) i) ∧
    wFull ≠ #v[0xBF, 0xF0, 0x81, 0x2C, 0x07, 0] := by decide
theorem witness_ReservedBitsCheckedOnlyWhenStrict_byte0 :
    (st true 0 false).cfg.strict = true ∧ 1 ≤ 1 ∧ (#v[0xC0, 0, 0, 0, 0, 0] : Window)[0].getLsbD 6 = true := by decide
theorem witness_ReservedBitsCheckedOnlyWhenStrict_byte1 :
    let w : Window := #v[0x80, 0x01, 0, 0, 0, 0]
    (st true 0 false).cfg.strict = true ∧ 2 ≤ 2 ∧ w[0].getLsbD 6 = false ∧ wireX w = true ∧ w[1] &&& 0x0F ≠ 0 := by
  decide
theorem witness_ReservedBitsCheckedOnlyWhenStrict_lenient :
    let w : Window := #v[0x80, 0x10, 0x05, 1, 2, 3]
    let w' : Window := #v[0xC0, 0x1F, 0x05, 1, 2, 3]
    (st false 0 false).cfg.strict = false ∧ w[0] &&& 0xBF = w'[0] &&& 0xBF ∧ w[1] &&& 0xF0 = w'[1] &&& 0xF0 ∧
    w ≠ w' ∧ ∀ i, 2 ≤ i → byteAt w i = byteAt w' i := by
  refine ⟨by decide, by decide, by decide, by decide, fun i hi => ?_⟩
  match i, hi with
  | 2, _ | 3, _ | 4, _ | 5, _ => rfl
  | n + 6, _ => simp [byteAt]
theorem witness_ReservedBitsCheckedOnlyWhenStrict_tk :
    let w : Window := #v[0x80, 0x10, 0xE5, 0, 0, 0]
    let w' : Window := #v[0x80, 0x10, 0x05, 0, 0, 0]
    (∀ i, i ≠ wireOffTk w → byteAt w i = byteAt w' i) ∧ w ≠ w' ∧
    byteAt w (wireOffTk w) &&& wireTkMask w = byteAt w' (wireOffTk w) &&& wireTkMask w := by
  refine ⟨fun i hi => ?_, by decide, by decide⟩
  match i with
  | 2 => exact absurd (by decide) hi
  | 0 | 1 | 3 | 4 | 5 => rfl
  | n + 6 => simp [byteAt]
theorem witness_ReservedBitReportedOnlyWhenSet :
    ∃ t : State, exec (.pdDec 1 #v[0xC0, 0, 0, 0, 0, 0]) (st true 0 false) = .next t ∧
      t.resp = some { status := .invalidPayloadDescriptor, reason := .reservedBit } := answers (by decide)
theorem witness_ByteZeroGivesFourFields_first :
    ∃ t : State, exec (.pdDec 1 #v[0x2F, 0, 0, 0, 0, 0]) (st false 0 false) = .next t ∧
      t.resp = some { status := .ok, desc := { nonReferenceFrame := true, pid := 15 }, consumed := 1 } :=
  answers (by decide)
theorem witness_ByteZeroGivesFourFields_second :
    ((#v[0x6F, 0, 0, 0, 0, 0] : Window)[0] = (#v[0x2F, 0, 0, 0, 0, 0] : Window)[0] ^^^ 0x40) ∧
    (∀ i, 1 ≤ i → byteAt (#v[0x6F, 0, 0, 0, 0, 0] : Window) i = byteAt (#v[0x2F, 0, 0, 0, 0, 0] : Window) i) ∧
    (∃ t : State, exec (.pdDec 1 #v[0x2F, 0, 0, 0, 0, 0]) (st false 0 false) = .next t ∧
      t.resp = some { status := .ok, desc := { nonReferenceFrame := true, pid := 15 }, consumed := 1 }) ∧
    ∃ t : State, exec (.pdDec 1 #v[0x6F, 0, 0, 0, 0, 0]) (st false 0 false) = .next t ∧
      t.resp = some { status := .ok, desc := { nonReferenceFrame := true, pid := 15 }, consumed := 1 } := by
  refine ⟨by decide, fun i hi => ?_, answers (by decide), answers (by decide)⟩
  match i, hi with
  | 1, _ | 2, _ | 3, _ | 4, _ | 5, _ => rfl
  | n + 6, _ => simp [byteAt]
theorem witness_ExtensionByteGivesPresenceFlags_present :
    (#v[0x80, 0x40, 0x07, 0, 0, 0] : Window)[0].getLsbD 7 = true ∧
    ∃ t : State, exec (.pdDec 3 #v[0x80, 0x40, 0x07, 0, 0, 0]) (st true 0 false) = .next t ∧
      t.resp = some { status := .ok, consumed := 3
                      desc := { extendedControlBitsPresent := true, tl0picidxPresent := true, tl0picidx := 7 } } :=
  ⟨by decide, answers (by decide)⟩
theorem witness_ExtensionByteGivesPresenceFlags_absent :
    (#v[0x10, 0, 0, 0, 0, 0] : Window)[0].getLsbD 7 = false ∧
    (#v[0x10, 0xFF, 0, 0, 0, 0] : Window)[0] = (#v[0x10, 0, 0, 0, 0, 0] : Window)[0] ∧
    ∃ t : State, exec (.pdDec 1 #v[0x10, 0, 0, 0, 0, 0]) (st true 0 false) = .next t ∧
      t.resp = some { status := .ok, desc := { startOfPartition := true }, consumed := 1 } :=
  ⟨by decide, by decide, answers (by decide)⟩
theorem witness_NothingReadPastDescriptor :
    let w : Window := #v[0x90, 0x80, 0x05, 0xAA, 0xBB, 0xCC]
    let w' : Window := #v[0x90, 0x80, 0x05, 0, 0, 0]
    wireLen w ≤ 1500 ∧ wireLen w ≤ 3 ∧ (∀ i < wireLen w, byteAt w i = byteAt w' i) ∧ w ≠ w' := by decide
theorem witness_NothingReadPastDescriptor_ok :
    ∃ t : State, exec (.pdDec 1500 #v[0x90, 0x80, 0x05, 0xAA, 0xBB, 0xCC]) (st true 0 false) = .next t ∧
      t.resp = some { status := .ok, consumed := 3
                      desc := { extendedControlBitsPresent := true, startOfPartition := true
                                pictureidPresent := true, pictureId := 5 } } := answers (by decide)
theorem witness_LongPayloadActsAsSixBytes : 6 ≤ 7 := by decide
/-- A 2-byte picture ID that holds 5. -/
theorem witness_PictureIdFormsDecode_two_bytes :
    ∃ t : State, exec (.pdDec 4 #v[0x80, 0x80, 0x80, 0x05, 0, 0]) (st true 0 false) = .next t ∧
      t.resp = some { status := .ok, consumed := 4
                      desc := { extendedControlBitsPresent := true, pictureidPresent := true, pictureId := 5 } } :=
  answers (by decide)
theorem witness_PictureIdFormsDecode_one_byte :
    ∃ t : State, exec (.pdDec 3 #v[0x80, 0x80, 0x7F, 0, 0, 0]) (st true 0 false) = .next t ∧
      t.resp = some { status := .ok, consumed := 3
                      desc := { extendedControlBitsPresent := true, pictureidPresent := true, pictureId := 127 } } :=
  answers (by decide)
/-- DV20: the decode of X = 1 with no field flag, which clause 2 of R28 does not allow. -/
theorem witness_DecodedDescriptorIsInRange :
    ∃ t : State, exec (.pdDec 2 #v[0x80, 0x00, 0, 0, 0, 0]) (st true 0 false) = .next t ∧
      t.resp = some { status := .ok, desc := { extendedControlBitsPresent := true }, consumed := 2 } :=
  answers (by decide)
theorem witness_EmptyExtensionByteAccepted :
    let w : Window := #v[0x80, 0x00, 0, 0, 0, 0]
    2 ≤ 2 ∧ w[0].getLsbD 7 = true ∧ w[1] &&& 0xF0 = 0 ∧
    ((st true 0 false).cfg.strict = true → w[0].getLsbD 6 = false ∧ w[1] = 0) := by decide
theorem witness_ZeroDescriptorIsAlsoASuccess :
    1 ≤ 1 ∧ (#v[0x40, 0, 0, 0, 0, 0] : Window)[0] &&& 0xBF = 0 ∧
    ((st false 0 false).cfg.strict = true → (#v[0x40, 0, 0, 0, 0, 0] : Window)[0].getLsbD 6 = false) := by decide

/-- Every field at its largest value. -/
def dFull : Descriptor :=
  { extendedControlBitsPresent := true, pid := 15, pictureidPresent := true, pictureId := 0x7FFF
    tl0picidxPresent := true, tl0picidx := 255, tidPresent := true, tid := 3, layerSync := true
    keyidxPresent := true, keyidx := 31 }

theorem witness_EncodeCompletes :
    dFull.pid ≤ 15 ∧ (dFull.pictureidPresent = true → dFull.pictureId ≤ 0x7FFF) ∧
    (dFull.tidPresent = true → dFull.tid ≤ 3) ∧ (dFull.keyidxPresent = true → dFull.keyidx ≤ 31) := by decide
theorem witness_EncodeReportsFieldRange_pid : (15 : Byte) < { dFull with pid := 16 }.pid := by decide
theorem witness_EncodeReportsFieldRange_pictureId :
    (0x7FFF : Half) < { dFull with pictureId := 0x8000 }.pictureId := by decide
theorem witness_EncodeReportsFieldRange_tid : (3 : Byte) < { dFull with tid := 4 }.tid := by decide
theorem witness_EncodeReportsFieldRange_keyidx : (31 : Byte) < { dFull with keyidx := 32 }.keyidx := by decide
theorem witness_EncodedByteZero :
    ∃ t : State, exec (.pdEnc dFull) (st true 0 false) = .next t ∧
      t.resp = some { status := .ok, out := #v[0x8F, 0xF0, 0xFF, 0xFF, 0xFF, 0xFF], outLen := 6 } :=
  answers (by decide)
theorem witness_EncodedExtensionByte :
    (∃ t : State, exec (.pdEnc dFull) (st true 0 false) = .next t ∧
      t.resp = some { status := .ok, out := #v[0x8F, 0xF0, 0xFF, 0xFF, 0xFF, 0xFF], outLen := 6 }) ∧
    (#v[0x8F, 0xF0, 0xFF, 0xFF, 0xFF, 0xFF] : Window)[0].getLsbD 7 = true := ⟨witness_EncodedByteZero, by decide⟩
theorem witness_EncodedTrailingBytes :
    (∃ t : State, exec (.pdEnc dFull) (st true 0 false) = .next t ∧
      t.resp = some { status := .ok, out := #v[0x8F, 0xF0, 0xFF, 0xFF, 0xFF, 0xFF], outLen := 6 }) ∧
    (dFull.tidPresent || dFull.keyidxPresent) = true ∧ dFull.tl0picidxPresent = true :=
  ⟨witness_EncodedByteZero, by decide, by decide⟩
theorem witness_EncodedLengthIsMinimal :
    ∃ t : State, exec (.pdEnc { tl0picidxPresent := true, tl0picidx := 255 }) (st true 0 false) = .next t ∧
      t.resp = some { status := .ok, out := #v[0x80, 0x40, 0xFF, 0, 0, 0], outLen := 3 } ∧ (3 : Len3).toNat ≤ 3 := by
  obtain ⟨t, h, h'⟩ := answers (o := exec (.pdEnc { tl0picidxPresent := true, tl0picidx := 255 }) (st true 0 false))
    (r := { status := .ok, out := #v[0x80, 0x40, 0xFF, 0, 0, 0], outLen := 3 }) (by decide)
  exact ⟨t, h, h', by decide⟩
theorem witness_EncodedPictureIdIsShortest_one_byte :
    ∃ t : State, exec (.pdEnc { pictureidPresent := true, pictureId := 127 }) (st true 0 false) = .next t ∧
      t.resp = some { status := .ok, out := #v[0x80, 0x80, 0x7F, 0, 0, 0], outLen := 3 } := answers (by decide)
theorem witness_EncodedPictureIdIsShortest_two_bytes :
    ∃ t : State, exec (.pdEnc { pictureidPresent := true, pictureId := 128 }) (st true 0 false) = .next t ∧
      t.resp = some { status := .ok, out := #v[0x80, 0x80, 0x80, 0x80, 0, 0], outLen := 4 } := answers (by decide)
theorem witness_DecodeAfterEncode : dFull.wellFormed = true ∧
    ∃ t : State, exec (.pdEnc dFull) (st true 0 false) = .next t ∧
      t.resp = some { status := .ok, out := #v[0x8F, 0xF0, 0xFF, 0xFF, 0xFF, 0xFF], outLen := 6 } ∧
      (6 : Len3).toNat ≤ 6 ∧ ∀ i < (6 : Len3).toNat, byteAt (#v[0x8F, 0xF0, 0xFF, 0xFF, 0xFF, 0xFF] : Window) i =
        byteAt (#v[0x8F, 0xF0, 0xFF, 0xFF, 0xFF, 0xFF] : Window) i := by
  obtain ⟨t, h, h'⟩ := witness_EncodedByteZero
  exact ⟨by decide, t, h, h', by decide, fun _ _ => rfl⟩
theorem witness_PacketRoundTrip : dFull.wellFormed = true := by decide
/-- A reserved bit, an ignored T/K sub-field and a 2-byte picture ID below 128 at once. -/
theorem witness_EncodeAfterDecode :
    ∃ t : State, exec (.pdDec 5 #v[0xC0, 0x91, 0x80, 0x05, 0xE5, 0]) (st false 0 false) = .next t ∧
      t.resp = some { status := .ok, consumed := 5
                      desc := { extendedControlBitsPresent := true, pictureidPresent := true, pictureId := 5
                                keyidxPresent := true, keyidx := 5 } } := answers (by decide)
theorem witness_CodecIsStateless_dec :
    (st true 0 false).cfg.strict = (st true 9 true).cfg.strict ∧
    (∃ t : State, exec (.pdDec 1 Window.zero) (st true 0 false) = .next t ∧
      t.resp = some { status := .ok, consumed := 1 }) ∧
    ∃ t' : State, exec (.pdDec 1 Window.zero) (st true 9 true) = .next t' ∧
      t'.resp = some { status := .ok, consumed := 1 } :=
  ⟨by decide, answers (by decide), answers (by decide)⟩
theorem witness_CodecIsStateless_enc :
    (∃ t : State, exec (.pdEnc {}) (st true 0 false) = .next t ∧ t.resp = some { status := .ok, outLen := 1 }) ∧
    ∃ t' : State, exec (.pdEnc {}) (st false 9 true) = .next t' ∧ t'.resp = some { status := .ok, outLen := 1 } :=
  ⟨answers (by decide), answers (by decide)⟩
/-- Its encode clause has the witness of EncodedByteZero. -/
theorem witness_CodecIsIdempotent :
    ∃ t : State, exec (.pdDec 0 Window.zero) (st true 9 true) = .next t ∧
      t.resp = some { status := .invalidPayloadDescriptor, reason := .truncated } := answers (by decide)

theorem witness_FirstSequenceNumberIsTaken : (st false 12345 false).initialized = false := by decide
theorem witness_DeltaIsTheUniqueSignedDifference :
    -32768 ≤ (-32768 : Int) ∧ (-32768 : Int) ≤ 32767 ∧
    (65536 : Int) ∣ -32768 - (((7232 : Half).toNat : Int) - ((st false 40000 true).refCseq.toNat : Int)) ∧
    (st false 40000 true).initialized = true ∧ 0 ≤ ((st false 40000 true).refCseq.toNat : Int) + -32768 ∧
    ((st false 40000 true).refCseq.toNat : Int) + -32768 ≤ 0xFFFFFFFF := by decide
/-- The sum is 0, the least u32. -/
theorem witness_SequenceNumberIsExtended_bottom :
    (st false 1 true).initialized = true ∧
    0 ≤ ((st false 1 true).refCseq.toNat : Int) + ((0 : Half) - (st false 1 true).refCseq.setWidth 16).toInt ∧
    ((st false 1 true).refCseq.toNat : Int) + ((0 : Half) - (st false 1 true).refCseq.setWidth 16).toInt ≤
      0xFFFFFFFF := by decide
/-- SV13: the sum is 0xFFFFFFFF, the greatest u32. -/
theorem witness_SequenceNumberIsExtended_top :
    let s := st false 0xFFFFFFF0 true
    s.initialized = true ∧ 0 ≤ (s.refCseq.toNat : Int) + ((0xFFFF : Half) - s.refCseq.setWidth 16).toInt ∧
    (s.refCseq.toNat : Int) + ((0xFFFF : Half) - s.refCseq.setWidth 16).toInt ≤ 0xFFFFFFFF := by decide
theorem witness_SequenceRangeExitsAreRejected_underflow :
    let s := st false 0 true
    s.initialized = true ∧ (s.refCseq.toNat : Int) + ((0xFFFF : Half) - s.refCseq.setWidth 16).toInt < 0 := by decide
theorem witness_SequenceRangeExitsAreRejected_overflow :
    let s := st false 0xFFFFFFFF true
    s.initialized = true ∧ 0xFFFFFFFF < (s.refCseq.toNat : Int) + ((0 : Half) - s.refCseq.setWidth 16).toInt := by
  decide
theorem witness_SequenceTieGoesBackward_valid :
    (st false 32768 true).initialized = true ∧ (0 : Half) - (st false 32768 true).refCseq.setWidth 16 = 0x8000 ∧
    32768 ≤ (st false 32768 true).refCseq.toNat := by decide
theorem witness_SequenceTieGoesBackward_underflow :
    (st false 32767 true).initialized = true ∧
    (0xFFFF : Half) - (st false 32767 true).refCseq.setWidth 16 = 0x8000 ∧
    (st false 32767 true).refCseq.toNat < 32768 := by decide
/-- SV14. -/
theorem witness_ExtendedNumberKeepsRawNumber :
    ∃ t : State, exec (.seqNext 0) (st false 65535 true) = .next t ∧
      t.resp = some { status := .ok, ext := 65536 } := answers (by decide)
/-- A wrap by a step of 1 and a step of 32767. -/
theorem witness_ForwardStreamIsNumberedExactly :
    let steps := [1, 32767]
    let s := (st false 9 false).withProgram (([65535, 0, 32767] : List Half).map (encode ∘ Instr.seqNext))
    s.initialized = false ∧ (∀ d ∈ steps, 1 ≤ d ∧ d ≤ 32767) ∧ (65535 : Half).toNat + steps.sum ≤ 0xFFFFFFFF ∧
    s.inbox = (List.range (steps.length + 1)).map
      (fun k => encode (.seqNext (65535 + BitVec.ofNat 16 (steps.take k).sum))) := by decide
theorem witness_DuplicateReturnsReference : (st false 70000 true).initialized = true := by decide
/-- SV3: 99 after 100. -/
theorem witness_BackwardPacketMovesReferenceBack :
    (st false 100 true).initialized = true ∧ ((99 : Half) - (st false 100 true).refCseq.setWidth 16).toInt < 0 ∧
    ∃ t : State, exec (.seqNext 99) (st false 100 true) = .next t ∧ t.resp = some { status := .ok, ext := 99 } :=
  ⟨by decide, by decide, answers (by decide)⟩
theorem witness_FarDisplacementAliases_forward :
    let s := st false 32767 true
    s.initialized = true ∧ (65536 : Int) ∣ ((0 : Half).toNat : Int) - ((s.refCseq.toNat : Int) + 32769) ∧
    32768 < (32769 : Int) ∧ (32769 : Int) < 65536 ∧ 0 ≤ (s.refCseq.toNat : Int) + 32769 - 65536 := by decide
/-- SV8: a packet 32769 behind 40000. -/
theorem witness_FarDisplacementAliases_backward :
    let s := st false 40000 true
    s.initialized = true ∧ (65536 : Int) ∣ ((7231 : Half).toNat : Int) - ((s.refCseq.toNat : Int) + -32769) ∧
    -65536 < (-32769 : Int) ∧ (-32769 : Int) < -32768 ∧ (s.refCseq.toNat : Int) + -32769 + 65536 ≤ 0xFFFFFFFF := by
  decide
theorem witness_FarDisplacementAliases_multiple :
    let s := st false 5 true
    s.initialized = true ∧ (65536 : Int) ∣ ((5 : Half).toNat : Int) - ((s.refCseq.toNat : Int) + 65536) ∧
    (65536 : Int) ∣ 65536 := by decide
theorem witness_SequenceResetRestartsStream :
    ∃ t : State, exec .seqReset (st false 70000 true) = .next t ∧ t.resp = some { status := .ok } :=
  answers (by decide)
/-- SV15, and the same with another reference. -/
theorem witness_UninitializedReferenceIsNeverRead :
    (st false 12345 false).initialized = false ∧
    (∃ t : State, exec (.seqNext 7) (st false 12345 false) = .next t ∧ t.resp = some { status := .ok, ext := 7 }) ∧
    ∃ t' : State, exec (.seqNext 7) { st false 12345 false with refCseq := 6 } = .next t' ∧
      t'.resp = some { status := .ok, ext := 7 } := ⟨by decide, answers (by decide), answers (by decide)⟩
theorem witness_TrackerIgnoresDescriptors :
    (st true 5 true).refCseq = (st false 5 true).refCseq ∧
    (st true 5 true).initialized = (st false 5 true).initialized ∧
    (∃ t : State, exec (.seqNext 6) (st true 5 true) = .next t ∧ t.resp = some { status := .ok, ext := 6 }) ∧
    ∃ t' : State, exec (.seqNext 6) (st false 5 true) = .next t' ∧ t'.resp = some { status := .ok, ext := 6 } :=
  ⟨by decide, by decide, answers (by decide), answers (by decide)⟩
theorem witness_ReferenceIsTheLastReturnedNumber :
    ∃ t : State, exec (.seqNext 99) (st false 100 true) = .next t ∧ t.resp = some { status := .ok, ext := 99 } :=
  answers (by decide)
theorem witness_ErrorsHaveNoOtherEffect :
    ((st false 0 true).withProgram [encode (.seqNext 0xFFFF)]).inbox = encode (.seqNext 0xFFFF) :: [] ∧
    ∃ t : State, step ((st false 0 true).withProgram [encode (.seqNext 0xFFFF)]) = .next t ∧
      t.resp = some { status := .invalidPayloadDescriptor, reason := .seqUnderflow } :=
  ⟨by decide, answers (by decide)⟩
theorem witness_OnlyTrackerCommandsChangeTheTracker :
    (st false 0 false).initialized = false ∧
    ∃ t : State, step ((st false 0 false).withProgram prog) = .next t ∧ t.initialized = true :=
  ⟨by decide, _, rfl, rfl⟩
theorem witness_StepKeepsInvariant :
    ((st false 0 false).withProgram prog).Inv ∧
    ∃ t : State, step ((st false 0 false).withProgram prog) = .next t ∧
      t.resp = some { status := .ok, ext := 100 } :=
  ⟨⟨fun _ => rfl, fun _ h => by cases h⟩, answers (by decide)⟩
/-- P3 steps 3 and 4: the descriptor of 1 byte fails, the sequence number counts. -/
theorem witness_TrackerSeesEveryPacket :
    ((st false 100 true).withProgram (receivePacket [0x80] 102 ++ prog)).inbox =
      receivePacket [0x80] 102 ++ prog := by decide

end Sys2Proof.Tests
end

