-- ==== Sys2Proof/Proofs/CodecStateless.lean ====
section
/-! SUPPORT. PD.DEC and PD.ENC as responses that a function of their operands gives (spec/10_state.md R21), and the
proof of O37 from it. -/

namespace Sys2Proof.Machine

/-- What PD.DEC answers: the state enters through `STRICT` alone. -/
def decodeResponse (strict : Bool) (len : Nat) (w : Window) : Response :=
  match decodeDescriptor strict len w with
  | .ok (d, n) => { status := .ok, desc := d, consumed := BitVec.ofNat 3 n }
  | .error r => { status := .invalidPayloadDescriptor, reason := r }

/-- What PD.ENC answers: the state does not enter. -/
def encodeResponse (d : Descriptor) : Response :=
  match encodeDescriptor d with
  | .ok (out, n) => { status := .ok, out := out, outLen := BitVec.ofNat 3 n }
  | .error r => { status := .contractViolation, reason := r }

theorem exec_pdDec_eq_respond (len : Nat) (w : Window) (s : State) :
    exec (.pdDec len w) s = .next (s.respond (decodeResponse s.cfg.strict len w)) := by
  obtain ⟨d, n, hd, h⟩ | ⟨r, hd, h⟩ := exec_pdDec_cases len w s
  · simp [h, decodeResponse, hd]
  · simp [h, decodeResponse, hd, State.raise]

theorem exec_pdEnc_eq_respond (d : Descriptor) (s : State) :
    exec (.pdEnc d) s = .next (s.respond (encodeResponse d)) := by
  obtain ⟨out, n, he, h⟩ | ⟨r, he, h⟩ := exec_pdEnc_cases d s
  · simp [h, encodeResponse, he]
  · simp [h, encodeResponse, he, State.raise]

/-- Settles O37: each command is `State.respond` of a response that its operands, and for PD.DEC `STRICT`, give. -/
theorem codecIsStateless : Obligations.CodecIsStateless := by
  unfold Obligations.CodecIsStateless
  constructor
  · intro s s' t t' len w hstrict ht ht'
    rw [exec_pdDec_eq_respond] at ht ht'
    cases ht
    cases ht'
    exact ⟨by simp [hstrict], rfl⟩
  · intro s s' t t' d ht ht'
    rw [exec_pdEnc_eq_respond] at ht ht'
    cases ht
    cases ht'
    exact ⟨rfl, rfl⟩

end Sys2Proof.Machine
end

