-- ==== Sys2Proof/Proofs/CommandOrder.lean ====
section
/-! SUPPORT. No command sees what the host issues after it (spec/20_memory.md R51): `exec`, `step` and runs commute with
a change of the commands that still wait, and the proof of O9 from it. -/

namespace Sys2Proof.Machine

/-! ### SEQ.NEXT, one equation per branch -/

section
variable {s : State} {raw : Half}

theorem exec_seqNext_first (h : s.initialized = false) :
    exec (.seqNext raw) s = .next (s.acceptSequence (raw.setWidth 32)) := by
  simp [exec, execSeqNext, h]

theorem exec_seqNext_ok {e : Word} (h : s.initialized = true) (he : extendSequence s.refCseq raw = .ok e) :
    exec (.seqNext raw) s = .next (s.acceptSequence e) := by
  simp [exec, execSeqNext, h, he]

theorem exec_seqNext_error {r : Reason} (h : s.initialized = true)
    (he : extendSequence s.refCseq raw = .error r) :
    exec (.seqNext raw) s = .next (s.raise .invalidPayloadDescriptor r) := by
  simp [exec, execSeqNext, h, he]

end

/-! ### The step, by what the presented command decodes to -/

section
variable {s : State} {c : Command} {rest : List Command}

theorem step_of_decode_ok {i : Instr} (hs : s.inbox = c :: rest) (hd : decode c = .ok i) :
    step s = exec i (s.withProgram rest) := by
  simp [step, takeCommand_cons hs, hd, State.withProgram]

theorem step_of_decode_error {e : DecodeError} (hs : s.inbox = c :: rest) (hd : decode c = .error e) :
    step s = .next ((s.withProgram rest).raise .illegalOp .none) := by
  simp [step, takeCommand_cons hs, hd, State.withProgram]

end

theorem step_answers_next (s : State) : ∃ t, step s = .next t := by
  obtain ⟨-, h⟩ | ⟨c, rest, i, -, -, h⟩ | ⟨c, rest, e, -, -, h⟩ := step_cases s
  · exact ⟨_, h⟩
  · obtain ⟨t, r, ht, -⟩ := exec_frame i { s with inbox := rest }
    exact ⟨t, h.trans ht⟩
  · exact ⟨_, h⟩

/-- The last step of a run is the step of the state that the steps before it left. -/
theorem run_succ_eq_step {k : Nat} {s t : State} (h : Sys2Proof.core.run k s = .next t) :
    Sys2Proof.core.run (k + 1) s = step t := by
  induction k generalizing s with
  | zero =>
    obtain ⟨s', hs⟩ := step_answers_next s
    cases h
    exact (run_succ 0 hs).trans hs.symm
  | succ k ih =>
    obtain ⟨s', hs⟩ := step_answers_next s
    rw [run_succ _ hs] at h ⊢
    exact ih h

/-! ### The commands that still wait have no influence -/

/-- Whatever commands `cs` wait while it runs, an instruction leads to the same state but for them. -/
theorem exec_withProgram (i : Instr) (s : State) :
    ∃ t : State, ∀ cs, exec i (s.withProgram cs) = .next (t.withProgram cs) := by
  cases i with
  | pdDec len w =>
    exact ⟨s.respond (decodeResponse s.cfg.strict len w), fun cs => exec_pdDec_eq_respond len w (s.withProgram cs)⟩
  | pdEnc d => exact ⟨s.respond (encodeResponse d), fun cs => exec_pdEnc_eq_respond d (s.withProgram cs)⟩
  | seqNext raw =>
    cases hb : s.initialized with
    | false => exact ⟨s.acceptSequence _, fun cs => exec_seqNext_first (s := s.withProgram cs) hb⟩
    | true =>
      cases he : extendSequence s.refCseq raw with
      | ok e => exact ⟨s.acceptSequence e, fun cs => exec_seqNext_ok (s := s.withProgram cs) hb he⟩
      | error r => exact ⟨s.raise _ r, fun cs => exec_seqNext_error (s := s.withProgram cs) hb he⟩
  | seqReset => exact ⟨(s.setTracker 0 false).respond _, fun cs => exec_seqReset (s.withProgram cs)⟩

/-- Performing `c` leads to the same state, but for the commands `later` that wait behind it. -/
theorem step_withProgram_cons (s : State) (c : Command) :
    ∃ t : State, ∀ later, step (s.withProgram (c :: later)) = .next (t.withProgram later) := by
  cases hd : decode c with
  | ok i =>
    obtain ⟨t, ht⟩ := exec_withProgram i s
    exact ⟨t, fun later => (step_of_decode_ok rfl hd).trans (ht later)⟩
  | error e => exact ⟨s.raise .illegalOp .none, fun later => step_of_decode_error rfl hd⟩

/-- Performing `earlier`, one step each, leads to the same state, but for the commands `later` that wait behind them. -/
theorem run_withProgram_append (s : State) (earlier : List Command) :
    ∃ t : State, ∀ later,
      Sys2Proof.core.run earlier.length (s.withProgram (earlier ++ later)) = .next (t.withProgram later) := by
  induction earlier generalizing s with
  | nil => exact ⟨s, fun later => run_zero _⟩
  | cons c cs ih =>
    obtain ⟨s', hstep⟩ := step_withProgram_cons s c
    obtain ⟨t, hrun⟩ := ih s'
    exact ⟨t, fun later => (run_succ cs.length (hstep (cs ++ later))).trans (hrun later)⟩

/-- Settles O9: the run of the earlier commands is the same with `c :: later` and with nothing waiting behind them. -/
theorem commandsPerformedInOrder : Obligations.CommandsPerformedInOrder := by
  unfold Obligations.CommandsPerformedInOrder
  intro s earlier c later hs
  obtain ⟨t, ht⟩ := run_withProgram_append s earlier
  have hissued : Sys2Proof.core.run earlier.length s = .next (t.withProgram (c :: later)) := by
    have hself : s.withProgram (earlier ++ c :: later) = s := by rw [← hs]; rfl
    simpa only [hself] using ht (c :: later)
  have halone : Sys2Proof.core.run earlier.length (s.withProgram earlier) = .next (t.withProgram []) := by
    simpa only [List.append_nil] using ht []
  exact ⟨_, _, hissued, rfl, run_succ_eq_step hissued, halone, rfl⟩

end Sys2Proof.Machine
end

