-- ==== Sys2Proof/Proofs/WireDecode.lean ====
section
/-! SUPPORT. The decoder's stages and the wire layout of spec/30_encoding.md R70 to R77 say the same: a decode answers the
Descriptor and the length that the window spells, or the reason of R105 to R107 for which it does not. -/

namespace Sys2Proof.Machine

/-! ### Bit fields and masks name the same bits of a byte -/

theorem lowNibble_eq_mask (b : Byte) : (b.extractLsb 3 0).setWidth 8 = b &&& 0x0F := by revert b; decide

theorem lowNibble_ne_zero_eq_mask (b : Byte) : (b.extractLsb 3 0 != 0) = (b &&& 0x0F != 0) := by revert b; decide

theorem tidBits_eq_shift (b : Byte) : (b.extractLsb 7 6).setWidth 8 = b >>> 6 := by revert b; decide

theorem keyidxBits_eq_mask (b : Byte) : (b.extractLsb 4 0).setWidth 8 = b &&& 0x1F := by revert b; decide

theorem pictureIdOf1_eq_mask (p0 : Byte) : pictureIdOf1 p0 = (p0 &&& 0x7F).setWidth 16 := by revert p0; decide

theorem pictureIdOf2_eq_mask (p0 p1 : Byte) :
    pictureIdOf2 p0 p1 = ((p0 &&& 0x7F).setWidth 16 <<< 8) ||| p1.setWidth 16 := by
  apply BitVec.eq_of_toNat_eq
  have hmask : (p0 &&& 0x7F).toNat = p0.toNat % 128 := by revert p0; decide
  have hsum := Nat.two_pow_add_eq_or_of_lt p1.isLt (p0.toNat % 128)
  have hp1 := p1.isLt
  rw [pictureIdOf2_toNat, BitVec.toNat_or, BitVec.toNat_shiftLeft, BitVec.toNat_setWidth, BitVec.toNat_setWidth,
    hmask, Nat.shiftLeft_eq, Nat.mul_comm _ (2 ^ 8)]
  simp (disch := omega) only [Nat.mod_eq_of_lt]
  exact hsum

/-! ### Offsets of the layout -/

theorem wireOffTl0_le_wireOffTk (w : Window) : wireOffTl0 w ≤ wireOffTk w := Nat.le_add_right _ _

theorem wireOffTl0_le_four (w : Window) : wireOffTl0 w ≤ 4 := by
  unfold wireOffTl0 wirePictureIdWidth
  cases wireI w <;> cases wireM w <;> decide

theorem wireOffTk_le_five (w : Window) : wireOffTk w ≤ 5 := by
  have hoff := wireOffTl0_le_four w
  have hl := Bool.toNat_le (wireL w)
  unfold wireOffTk
  unfold wireOffTl0 at hoff
  omega

/-- Without the extension byte, DescLen is 1 (R77). -/
theorem wireLen_of_not_wireX {w : Window} (hx : wireX w = false) : wireLen w = 1 := by
  simp [wireLen, descLen, hx]

/-- With the extension byte, the descriptor ends after its T/K byte, if it has one (R75, R77). -/
theorem wireLen_of_wireX {w : Window} (hx : wireX w = true) :
    wireLen w = wireOffTk w + (wireT w || wireK w).toNat := by
  simp [wireLen, descLen, wireOffTk, wirePictureIdWidth, hx]

theorem one_le_wireLen (w : Window) : 1 ≤ wireLen w := by
  unfold wireLen descLen
  omega

theorem wireLen_le_six (w : Window) : wireLen w ≤ 6 := by
  cases hx : wireX w with
  | false => rw [wireLen_of_not_wireX hx]; decide
  | true =>
    rw [wireLen_of_wireX hx]
    exact Nat.add_le_add (wireOffTk_le_five w) (Bool.toNat_le _)

theorem two_le_wireLen {w : Window} (hx : wireX w = true) : 2 ≤ wireLen w := by
  rw [wireLen_of_wireX hx]
  unfold wireOffTk
  omega

/-! ### The Descriptor after each stage -/

/-- The window's Descriptor as bytes 0 and 1 give it: no value read yet. -/
def wireFlags (w : Window) : Descriptor :=
  { wireDescriptor w with pictureId := 0, tl0picidx := 0, tid := 0, layerSync := false, keyidx := 0 }

/-- The window's Descriptor after the picture-ID stage. -/
def wireUpToPictureId (w : Window) : Descriptor :=
  { wireDescriptor w with tl0picidx := 0, tid := 0, layerSync := false, keyidx := 0 }

/-- The window's Descriptor after the TL0PICIDX stage. -/
def wireUpToTl0picidx (w : Window) : Descriptor :=
  { wireDescriptor w with tid := 0, layerSync := false, keyidx := 0 }

section
variable {len : Nat} {w : Window}

theorem unpackByte0_eq_wireDescriptor (hx : wireX w = false) : unpackByte0 w[0] = wireDescriptor w := by
  have h7 : w[0][7] = false := by simpa [wireX] using hx
  simp [unpackByte0, h7, wireDescriptor, wireI, wireL, wireT, wireK, wireM, hx, lowNibble_eq_mask, bit]

theorem unpackByte1_eq_wireFlags (hx : wireX w = true) : unpackByte1 (unpackByte0 w[0]) w[1] = wireFlags w := by
  have h7 : w[0][7] = true := by simpa [wireX] using hx
  simp [unpackByte1, unpackByte0, h7, wireFlags, wireDescriptor, wireI, wireL, wireT, wireK, hx, lowNibble_eq_mask,
    bit]

/-- The T/K byte's sub-fields complete the window's Descriptor (R74, R108). -/
theorem unpackTk_wireUpToTl0picidx (w : Window) :
    unpackKeyidx (unpackTid (wireUpToTl0picidx w) (byteAt w (wireOffTk w))) (byteAt w (wireOffTk w)) =
      wireDescriptor w := by
  cases hT : wireT w <;> cases hK : wireK w <;>
    simp [unpackTid, unpackKeyidx, wireUpToTl0picidx, wireDescriptor, hT, hK, bit, tidBits_eq_shift,
      keyidxBits_eq_mask]

/-- The picture-ID stage ends where TL0PICIDX begins (R103, R105). -/
theorem decodePictureId_wireFlags (hlen : 2 ≤ len) :
    decodePictureId len w (wireFlags w) 2 =
      if wireOffTl0 w ≤ len then .ok (wireUpToPictureId w, wireOffTl0 w) else .error .truncated := by
  cases hI : wireI w with
  | false =>
    have hM : wireM w = false := by simp [wireM, hI]
    rw [decodePictureId_absent len w _ 2 hI]
    simp [wireOffTl0, wirePictureIdWidth, wireFlags, wireUpToPictureId, wireDescriptor, hI, hM, hlen]
  | true =>
    rw [decodePictureId_present len w _ 2 hI (by decide)]
    cases hM : wireM w with
    | false =>
      have hbit : bit w[2] 7 = false := by simpa [wireM, hI, bit] using hM
      simp [wireOffTl0, wirePictureIdWidth, wireFlags, wireUpToPictureId, wireDescriptor, hI, hM, hbit,
        pictureIdOf1_eq_mask, Nat.succ_le_iff]
    | true =>
      have hbit : bit w[2] 7 = true := by simpa [wireM, hI, bit] using hM
      have hread : len ≤ 2 → len ≤ 3 := Nat.le_succ_of_le
      simpa [wireOffTl0, wirePictureIdWidth, wireFlags, wireUpToPictureId, wireDescriptor, hI, hM, hbit,
        pictureIdOf2_eq_mask, Nat.succ_le_iff] using hread

/-- The TL0PICIDX stage ends where the T/K byte begins (R105, R108). -/
theorem decodeTl0picidx_wireUpToPictureId (hlen : wireOffTl0 w ≤ len) :
    decodeTl0picidx len w (wireUpToPictureId w) (wireOffTl0 w) =
      if wireOffTk w ≤ len then .ok (wireUpToTl0picidx w, wireOffTk w) else .error .truncated := by
  have hend : wireOffTk w = wireOffTl0 w + (wireL w).toNat := rfl
  cases hL : wireL w with
  | false =>
    rw [decodeTl0picidx_absent len w _ _ hL]
    simp [wireUpToPictureId, wireUpToTl0picidx, wireDescriptor, hend, hL, hlen]
  | true =>
    rw [decodeTl0picidx_present len w _ _ hL (by have := wireOffTl0_le_four w; omega)]
    simp [wireUpToPictureId, wireUpToTl0picidx, wireDescriptor, hend, hL, Nat.succ_le_iff]

/-- The T/K stage ends at DescLen (R105, R108). -/
theorem decodeTk_wireUpToTl0picidx (hx : wireX w = true) (hlen : wireOffTk w ≤ len) :
    decodeTk len w (wireUpToTl0picidx w) (wireOffTk w) =
      if wireLen w ≤ len then .ok (wireDescriptor w, wireLen w) else .error .truncated := by
  have hend := wireLen_of_wireX hx
  cases hTK : wireT w || wireK w with
  | false =>
    obtain ⟨hT, hK⟩ := Bool.or_eq_false_iff.mp hTK
    rw [decodeTk_absent len w _ _ hT hK]
    simp [wireUpToTl0picidx, wireDescriptor, hend, hT, hK, hlen]
  | true =>
    rw [decodeTk_present len w _ _ hTK (by have := wireOffTk_le_five w; omega), unpackTk_wireUpToTl0picidx]
    simp [hend, hTK]

end

/-! ### The decoder as a whole -/

/-- The fields after the extension byte: the first byte that is missing makes the decode fail, and DescLen bytes are
enough (R105). -/
theorem decodeFields_wireFlags {len : Nat} {w : Window} (hx : wireX w = true) (hlen : 2 ≤ len) :
    (do let p ← decodePictureId len w (wireFlags w) 2
        let q ← decodeTl0picidx len w p.1 p.2
        decodeTk len w q.1 q.2) =
      if wireLen w ≤ len then .ok (wireDescriptor w, wireLen w) else .error .truncated := by
  have htk : wireOffTk w ≤ wireLen w := by rw [wireLen_of_wireX hx]; exact Nat.le_add_right _ _
  have htl0 := wireOffTl0_le_wireOffTk w
  rw [decodePictureId_wireFlags hlen]
  by_cases h1 : wireOffTl0 w ≤ len
  · rw [if_pos h1, ok_bind, decodeTl0picidx_wireUpToPictureId h1]
    by_cases h2 : wireOffTk w ≤ len
    · rw [if_pos h2, ok_bind, decodeTk_wireUpToTl0picidx hx h2]
    · rw [if_neg h2, error_bind, if_neg (by omega)]
  · rw [if_neg h1, error_bind, if_neg (by omega)]

/-- Everything the extension can answer where X = 1, of byte 0's fields (R102, R105, R106). -/
theorem decodeExtension_eq_wire {strict : Bool} {len : Nat} {w : Window} (hx : wireX w = true) :
    decodeExtension strict len w (unpackByte0 w[0]) =
      if strict && (decide (2 ≤ len) && w[1] &&& 0x0F != 0) then .error .reservedBit
      else if wireLen w ≤ len then .ok (wireDescriptor w, wireLen w)
      else .error .truncated := by
  rw [decodeExtension_eq, lowNibble_ne_zero_eq_mask, unpackByte1_eq_wireFlags hx]
  by_cases h2 : 2 ≤ len
  · rw [if_pos (show 1 < len from h2), decodeFields_wireFlags hx h2, decide_eq_true h2, Bool.true_and, Bool.and_comm]
  · have htwo := two_le_wireLen hx
    simp [h2, show ¬ 1 < len by omega, show ¬ wireLen w ≤ len by omega]

/-- A strict decoder meets a reserved bit that is 1 in a byte the payload has (R106). -/
def reservedBitSeen (strict : Bool) (len : Nat) (w : Window) : Bool :=
  strict && (decide (1 ≤ len) && w[0].getLsbD 6 || wireX w && (decide (2 ≤ len) && w[1] &&& 0x0F != 0))

theorem reservedBitSeen_iff (strict : Bool) (len : Nat) (w : Window) :
    reservedBitSeen strict len w = true ↔
      strict = true ∧
        ((1 ≤ len ∧ w[0].getLsbD 6 = true) ∨ (wireX w = true ∧ 2 ≤ len ∧ w[1] &&& 0x0F ≠ 0)) := by
  simp [reservedBitSeen]

/-- Everything the decoder can answer: RESERVED_BIT, else TRUNCATED, else what the window spells (R104 to R107). -/
theorem decodeDescriptor_eq_wire (strict : Bool) (len : Nat) (w : Window) :
    decodeDescriptor strict len w =
      if reservedBitSeen strict len w then .error .reservedBit
      else if wireLen w ≤ len then .ok (wireDescriptor w, wireLen w)
      else .error .truncated := by
  have h6 : bit w[0] 6 = w[0].getLsbD 6 := rfl
  have h7 : bit w[0] 7 = wireX w := rfl
  rcases Nat.eq_zero_or_pos len with rfl | (hpos : 1 ≤ len)
  · have hone := one_le_wireLen w
    rw [decodeDescriptor_empty, if_neg (by simp [reservedBitSeen]), if_neg (by omega)]
  · rw [decodeDescriptor_of_pos len w strict hpos, h6, h7, reservedBitSeen, decide_eq_true hpos, Bool.true_and]
    cases hx : wireX w with
    | false =>
      rw [unpackByte0_eq_wireDescriptor hx, wireLen_of_not_wireX hx]
      simp [Bool.and_comm, Nat.succ_le_iff, hpos]
    | true =>
      rw [decodeExtension_eq_wire hx, if_pos rfl, Bool.true_and, Bool.and_or_distrib_left,
        Bool.and_comm (w[0].getLsbD 6)]
      cases strict && w[0].getLsbD 6 <;> simp

end Sys2Proof.Machine
end

