-- ==== Sys2Proof/Proofs/DecodedBytes.lean ====
section
/-! SUPPORT. Which bytes of the window PD.DEC reads and what they give (spec/40_descriptor_decode.md R101, R102, R104,
R105): the proofs of O13, O17, O18 and O19 from the decoder as a whole. -/

namespace Sys2Proof.Machine

/-! ### What PD.DEC answers -/

theorem exec_pdDec_eq_of_decode_eq {s : State} {len len' : Nat} {w w' : Window}
    (h : decodeDescriptor s.cfg.strict len w = decodeDescriptor s.cfg.strict len' w') :
    exec (.pdDec len w) s = exec (.pdDec len' w') s := by
  rw [exec_pdDec_eq_respond, exec_pdDec_eq_respond, decodeResponse, h, ← decodeResponse]

/-- A byte cut off that the flags ask for, and no reserved bit before it (R105, R107). -/
theorem exec_pdDec_truncated {s : State} {len : Nat} {w : Window} (hres : reservedBitSeen s.cfg.strict len w = false)
    (hlen : len < wireLen w) :
    exec (.pdDec len w) s = .next (s.raise .invalidPayloadDescriptor .truncated) := by
  have hdec : decodeDescriptor s.cfg.strict len w = .error .truncated := by
    rw [decodeDescriptor_eq_wire, if_neg (by simp [hres]), if_neg (Nat.not_le.mpr hlen)]
  rw [exec_pdDec_eq_respond, decodeResponse, hdec]
  rfl

/-- All that an OK answer says (R104). -/
theorem exec_pdDec_ok {s t : State} {len : Nat} {w : Window} {r : Response} (h : exec (.pdDec len w) s = .next t)
    (hresp : t.resp = some r) (hok : r.status = .ok) :
    wireLen w ≤ len ∧
      r = { status := .ok, desc := wireDescriptor w, consumed := BitVec.ofNat 3 (wireLen w) } := by
  obtain ⟨d, n, hdec, hexec⟩ | ⟨e, -, hexec⟩ := exec_pdDec_cases len w s
  · cases hexec.symm.trans h
    cases hresp
    rw [decodeDescriptor_eq_wire] at hdec
    split_ifs at hdec with hres hlen
    cases hdec
    exact ⟨hlen, rfl⟩
  · cases hexec.symm.trans h
    cases hresp
    cases hok

/-! ### The bytes that matter -/

/-- The decoder sees the window through its checked reads only (R105). -/
theorem decodeDescriptor_eq_of_reads_eq {strict : Bool} {len : Nat} {w w' : Window}
    (h : readAvailable len w = readAvailable len w') :
    decodeDescriptor strict len w = decodeDescriptor strict len w' := by
  simp only [decodeDescriptor, decodeExtension, decodePictureId, decodeTl0picidx, decodeTk, h]

theorem readAvailable_eq_of_bytes_eq {len : Nat} {w w' : Window} (h : ∀ i < len, byteAt w i = byteAt w' i) :
    readAvailable len w = readAvailable len w' := by
  funext i
  obtain ⟨hlen, hwin, hread⟩ | ⟨hout, hread⟩ := readAvailable_cases len w i
  · rw [hread, readAvailable_of_lt w' hlen hwin, h i hlen]
  · obtain ⟨hlen, hwin, -⟩ | ⟨-, hread'⟩ := readAvailable_cases len w' i
    · omega
    · rw [hread, hread']

/-- Windows that agree below `dec_len` decode alike (R105). -/
theorem decodeDescriptor_eq_of_bytes_eq {strict : Bool} {len : Nat} {w w' : Window}
    (h : ∀ i < len, byteAt w i = byteAt w' i) :
    decodeDescriptor strict len w = decodeDescriptor strict len w' :=
  decodeDescriptor_eq_of_reads_eq (readAvailable_eq_of_bytes_eq h)

/-- A payload longer than its descriptor decodes as the descriptor alone (R104, R110). -/
theorem decodeDescriptor_wireLen {strict : Bool} {len : Nat} {w : Window} (h : wireLen w ≤ len) :
    decodeDescriptor strict len w = decodeDescriptor strict (wireLen w) w := by
  have hone := one_le_wireLen w
  have hres : reservedBitSeen strict len w = reservedBitSeen strict (wireLen w) w := by
    cases hx : wireX w with
    | false => simp [reservedBitSeen, hx, hone, hone.trans h]
    | true =>
      have htwo := two_le_wireLen hx
      simp [reservedBitSeen, hx, hone, hone.trans h, htwo, htwo.trans h]
  rw [decodeDescriptor_eq_wire, decodeDescriptor_eq_wire, hres, if_pos h, if_pos le_rfl]

/-- The bytes that DescLen depends on lie within DescLen (R75, R77). -/
theorem wireLen_eq_of_bytes_eq {w w' : Window} (h : ∀ i < wireLen w, byteAt w i = byteAt w' i) :
    wireLen w' = wireLen w := by
  have h0 : w[0] = w'[0] := by simpa using h 0 (one_le_wireLen w)
  have hx' : wireX w' = wireX w := by simp [wireX, h0]
  cases hx : wireX w with
  | false => rw [wireLen_of_not_wireX hx, wireLen_of_not_wireX (hx'.trans hx)]
  | true =>
    have h1 : w[1] = w'[1] := by simpa using h 1 (two_le_wireLen hx)
    have hi' : wireI w' = wireI w := by simp [wireI, hx', h1]
    have hm' : wireM w' = wireM w := by
      cases hi : wireI w with
      | false => simp [wireM, hi', hi]
      | true =>
        have hthree : 2 < wireLen w := by simp [wireLen, descLen, hx, hi]; omega
        have h2 : w[2] = w'[2] := by simpa using h 2 hthree
        simp [wireM, hi', h2]
    simp [wireLen, hx', hi', hm', wireL, wireT, wireK, h1]

/-- Windows that hold the same descriptor give the same outcome, whatever follows it (R104). -/
theorem exec_pdDec_eq_of_descriptor_eq {s : State} {len len' : Nat} {w w' : Window} (hlen : wireLen w ≤ len)
    (hlen' : wireLen w ≤ len') (h : ∀ i < wireLen w, byteAt w i = byteAt w' i) :
    exec (.pdDec len w) s = exec (.pdDec len' w') s := by
  have hsame := wireLen_eq_of_bytes_eq h
  refine exec_pdDec_eq_of_decode_eq ?_
  calc decodeDescriptor s.cfg.strict len w
      = decodeDescriptor s.cfg.strict (wireLen w) w := decodeDescriptor_wireLen hlen
    _ = decodeDescriptor s.cfg.strict (wireLen w) w' := decodeDescriptor_eq_of_bytes_eq h
    _ = decodeDescriptor s.cfg.strict (wireLen w') w' := by rw [hsame]
    _ = decodeDescriptor s.cfg.strict len' w' := (decodeDescriptor_wireLen (hsame.trans_le hlen')).symm

/-! ### Reserved bits are not reported -/

theorem getLsbD_eq_of_and_eq {n : Nat} {a b m : BitVec n} (h : a &&& m = b &&& m) {i : Nat} (hi : m.getLsbD i = true) :
    a.getLsbD i = b.getLsbD i := by
  simpa [hi] using congrArg (BitVec.getLsbD · i) h

theorem xor_bit6_and_mask (b : Byte) : (b ^^^ 0x40) &&& 0xBF = b &&& 0xBF := by revert b; decide

/-- The reserved bits of bytes 0 and 1 are in no field of the Descriptor (R101, R106). -/
theorem wireDescriptor_eq_of_reserved {w w' : Window} (h0 : w'[0] &&& (0xBF : Byte) = w[0] &&& 0xBF)
    (h1 : w'[1] &&& (0xF0 : Byte) = w[1] &&& 0xF0) (hrest : ∀ i, 2 ≤ i → byteAt w' i = byteAt w i) :
    wireDescriptor w' = wireDescriptor w := by
  have bit0 := fun i => getLsbD_eq_of_and_eq (i := i) h0
  have bit1 := fun i => getLsbD_eq_of_and_eq (i := i) h1
  have hbyte2 : w'[2] = w[2] := by simpa using hrest 2 le_rfl
  have hbyte3 : w'[3] = w[3] := by simpa using hrest 3 (by decide)
  have hpid : w'[0] &&& (0x0F : Byte) = w[0] &&& 0x0F := by
    simpa [BitVec.and_assoc] using congrArg (· &&& (0x0F : Byte)) h0
  have hx : wireX w' = wireX w := bit0 7 (by decide)
  have hi : wireI w' = wireI w := by rw [wireI, wireI, hx, bit1 7 (by decide)]
  have hl : wireL w' = wireL w := by rw [wireL, wireL, hx, bit1 6 (by decide)]
  have ht : wireT w' = wireT w := by rw [wireT, wireT, hx, bit1 5 (by decide)]
  have hk : wireK w' = wireK w := by rw [wireK, wireK, hx, bit1 4 (by decide)]
  have hm : wireM w' = wireM w := by rw [wireM, wireM, hi, hbyte2]
  have htl0 : wireOffTl0 w' = wireOffTl0 w := by rw [wireOffTl0, wireOffTl0, wirePictureIdWidth, hi, hm]; rfl
  have htk : wireOffTk w' = wireOffTk w := by rw [wireOffTk, wireOffTk, wirePictureIdWidth, hi, hm, hl]; rfl
  have htl0byte := hrest (wireOffTl0 w) (by unfold wireOffTl0; omega)
  have htkbyte := hrest (wireOffTk w) (by unfold wireOffTk; omega)
  simp only [wireDescriptor, hx, bit0 5 (by decide), bit0 4 (by decide), hpid, hi, hm, hbyte2, hbyte3, hl, ht, hk,
    htl0, htk, htl0byte, htkbyte]

/-! ### The obligations -/

/-- Settles O13: the reads see nothing at or beyond `dec_len`, and the decoder as a whole gives the outcome. -/
theorem truncationCheckedBeforeEveryRead : Obligations.TruncationCheckedBeforeEveryRead := by
  unfold Obligations.TruncationCheckedBeforeEveryRead
  refine ⟨fun s len w hlen hbit0 hbits1 => ?_, fun s t len w r h hresp hok => (exec_pdDec_ok h hresp hok).1,
    fun s w => ?_, fun s len w w' h => exec_pdDec_eq_of_decode_eq (decodeDescriptor_eq_of_bytes_eq h)⟩
  · refine exec_pdDec_truncated (Bool.eq_false_iff.mpr fun hseen => ?_) hlen
    obtain ⟨hstrict, ⟨hone, hset⟩ | ⟨hx, htwo, hset⟩⟩ := (reservedBitSeen_iff _ _ _).mp hseen
    · exact Bool.false_ne_true ((hbit0 hstrict hone).symm.trans hset)
    · exact hset (hbits1 hstrict htwo hx)
  · exact exec_pdDec_truncated (by simp [reservedBitSeen]) (one_le_wireLen w)

/-- Settles O17: an OK answer has the window's Descriptor, in which bit 6 of byte 0 has no part. -/
theorem byteZeroGivesFourFields : Obligations.ByteZeroGivesFourFields := by
  unfold Obligations.ByteZeroGivesFourFields
  constructor
  · intro s t len w r h hresp hok
    obtain ⟨-, rfl⟩ := exec_pdDec_ok h hresp hok
    exact ⟨rfl, rfl, rfl, (lowNibble_eq_mask w[0]).symm⟩
  · intro s t t' len w w' r r' h0 hrest h hresp hok h' hresp' hok'
    obtain ⟨-, rfl⟩ := exec_pdDec_ok h hresp hok
    obtain ⟨-, rfl⟩ := exec_pdDec_ok h' hresp' hok'
    have hbyte0 : w'[0] &&& (0xBF : Byte) = w[0] &&& 0xBF := by
      rw [h0, xor_bit6_and_mask]
    have hbyte1 : w'[1] = w[1] := by simpa using hrest 1 le_rfl
    exact wireDescriptor_eq_of_reserved hbyte0 (by rw [hbyte1]) fun i hi => hrest i (by omega)

/-- Settles O18: an OK answer has the window's Descriptor, and where X = 0 DescLen is 1, past which nothing is read. -/
theorem extensionByteGivesPresenceFlags : Obligations.ExtensionByteGivesPresenceFlags := by
  unfold Obligations.ExtensionByteGivesPresenceFlags
  refine ⟨fun s t len w r h hresp hok hx => ?_, fun s len len' w w' hx h0 hlen hlen' => ?_,
    fun s t len w r h hresp hok hx => ?_⟩
  · obtain ⟨-, rfl⟩ := exec_pdDec_ok h hresp hok
    simp [wireDescriptor, wireI, wireL, wireT, wireK, wireX, hx]
  · have hone := wireLen_of_not_wireX hx
    refine exec_pdDec_eq_of_descriptor_eq (hone.trans_le hlen) (hone.trans_le hlen') fun i hi => ?_
    obtain rfl : i = 0 := by omega
    simp [h0]
  · obtain ⟨-, rfl⟩ := exec_pdDec_ok h hresp hok
    have hx' : wireX w = false := hx
    simp [wireDescriptor, wireI, wireL, wireT, wireK, hx', wireLen_of_not_wireX hx']

/-- Settles O19: an OK answer has DescLen, at most 6, in 3 bits; the other clause is the rule for windows that hold the
same descriptor. -/
theorem nothingReadPastDescriptor : Obligations.NothingReadPastDescriptor := by
  unfold Obligations.NothingReadPastDescriptor
  constructor
  · intro s t len w r h hresp hok
    obtain ⟨-, rfl⟩ := exec_pdDec_ok h hresp hok
    have hsix := wireLen_le_six w
    exact (BitVec.toNat_ofNat _ _).trans (Nat.mod_eq_of_lt (by omega))
  · exact fun s len len' w w' => exec_pdDec_eq_of_descriptor_eq

end Sys2Proof.Machine
end

