-- ==== Sys2Proof/Proofs/EncodedBytes.lean ====
section
/-! SUPPORT. The encoder's stages append to one list of bytes (spec/41_descriptor_encode.md R130 to R136): an OK answer
has the window and the length of `descriptorBytes`, and the proof of O29 from it. -/

namespace Sys2Proof.Machine

/-! ### The encoder's output as a list of bytes -/

/-- PD.ENC's output after it wrote `bytes`. -/
def cursorOf (bytes : List Byte) : OutCursor := (windowOf bytes, bytes.length)

/-- A write behind the bytes of a window adds one byte; at an offset of 6 or more, neither side shows it. -/
theorem memWrite_windowOf_length (l : List Byte) (v : Byte) :
    memWrite (windowOf l) l.length v = windowOf (l ++ [v]) := by
  refine window_ext fun i hi => ?_
  rw [byteAt_windowOf _ hi]
  obtain hlt | rfl | hgt := Nat.lt_trichotomy i l.length
  · rw [byteAt_memWrite_ne _ _ hlt.ne', byteAt_windowOf _ hi, List.getD_append _ _ _ _ hlt]
  · simp [byteAt_memWrite_same _ _ hi]
  · have hend : (l ++ [v]).length ≤ i := by simpa using hgt
    rw [byteAt_memWrite_ne _ _ hgt.ne, byteAt_windowOf _ hi, List.getD_eq_default _ _ hgt.le,
      List.getD_eq_default _ _ hend]

theorem emit_cursorOf (v : Byte) (l : List Byte) : emit v (cursorOf l) = cursorOf (l ++ [v]) := by
  simp [emit, cursorOf, memWrite_windowOf_length]

section
variable (d : Descriptor) (l : List Byte)

theorem emitPictureId_cursorOf : emitPictureId d (cursorOf l) = cursorOf (l ++ pictureIdBytes d) := by
  unfold emitPictureId pictureIdBytes
  split_ifs <;> simp [emit_cursorOf]

theorem emitTl0picidx_cursorOf : emitTl0picidx d (cursorOf l) = cursorOf (l ++ tl0picidxBytes d) := by
  unfold emitTl0picidx tl0picidxBytes
  split_ifs <;> simp [emit_cursorOf]

theorem emitTk_cursorOf : emitTk d (cursorOf l) = cursorOf (l ++ tkBytes d) := by
  unfold emitTk tkBytes
  split_ifs <;> simp [emit_cursorOf]

/-- Byte 0, and where the derived X is 1 the extension, are the bytes of the Descriptor (R130, R132). -/
theorem emitExtension_packByte0 : emitExtension d (cursorOf [packByte0 d]) = cursorOf (descriptorBytes d) := by
  unfold emitExtension descriptorBytes
  split_ifs
  · simp [emit_cursorOf, emitPictureId_cursorOf, emitTl0picidx_cursorOf, emitTk_cursorOf]
  · rfl

end

/-- Everything the encoder can answer, as a list of bytes (R130, R131). -/
theorem encodeDescriptor_eq_cursorOf (d : Descriptor) :
    encodeDescriptor d = if fieldOutOfRange d then .error .fieldRange else .ok (cursorOf (descriptorBytes d)) := by
  rw [← emitExtension_packByte0]
  rfl

/-! ### What PD.ENC answers -/

/-- All that an OK answer says (R43, R130). -/
theorem exec_pdEnc_ok {s t : State} {d : Descriptor} {r : Response} (h : exec (.pdEnc d) s = .next t)
    (hresp : t.resp = some r) (hok : r.status = .ok) :
    fieldOutOfRange d = false ∧
      r = { status := .ok, out := windowOf (descriptorBytes d),
            outLen := BitVec.ofNat 3 (descriptorBytes d).length } := by
  obtain ⟨out, n, henc, hexec⟩ | ⟨e, -, hexec⟩ := exec_pdEnc_cases d s
  · cases hexec.symm.trans h
    cases hresp
    rw [encodeDescriptor_eq_cursorOf] at henc
    split_ifs at henc with hrange
    cases henc
    exact ⟨Bool.eq_false_iff.mpr hrange, rfl⟩
  · cases hexec.symm.trans h
    cases hresp
    cases hok

theorem windowOf_descriptorBytes_zero (d : Descriptor) : (windowOf (descriptorBytes d))[0] = packByte0 d := rfl

/-- Where the derived X is 1, the extension byte follows byte 0 (R132, R134). -/
theorem windowOf_descriptorBytes_one {d : Descriptor} (hx : derivedX d = true) :
    (windowOf (descriptorBytes d))[1] = packByte1 d := by
  simp [windowOf, descriptorBytes, hx]

theorem packByte0_bit7 (d : Descriptor) : (packByte0 d).getLsbD 7 = derivedX d := flagByte_bit7 ..

/-! ### The obligations -/

/-- Settles O29: bit 7 of byte 0 is the derived X, so that byte 1 is the packed extension byte. -/
theorem encodedExtensionByte : Obligations.EncodedExtensionByte := by
  unfold Obligations.EncodedExtensionByte
  intro s t d r h hresp hok hbit7
  obtain ⟨-, rfl⟩ := exec_pdEnc_ok h hresp hok
  have hx : derivedX d = true := by
    rw [← packByte0_bit7, ← windowOf_descriptorBytes_zero]
    exact hbit7
  dsimp only
  rw [windowOf_descriptorBytes_one hx]
  exact ⟨flagByte_bit7 .., flagByte_bit6 .., flagByte_bit5 .., flagByte_bit4 .., flagByte_low ..⟩

end Sys2Proof.Machine
end

