-- ==== Sys2Proof/Proofs/SequenceDelta.lean ====
section
/-! SUPPORT. The tracker's difference as the one integer with its range and residue, what a later SEQ.NEXT answers where
the sum is a u32 (spec/42_sequence_tracker.md R161 to R163), and the proofs of O40 and O39 from them. -/

namespace Sys2Proof.Machine

section
variable (ref : Word) (raw : Half)

/-- The reduction by `low16` does not change the residue (R162). -/
theorem seqDelta_congruent : (65536 : Int) ∣ seqDelta ref raw - ((raw.toNat : Int) - (ref.toNat : Int)) := by
  have h := s16_congruent ((raw.toNat : Int) - low16 ref)
  unfold seqDelta
  unfold low16 at h ⊢
  omega

/-- The range and the residue determine the difference (R162). -/
theorem seqDelta_unique {delta : Int} (lo : -32768 ≤ delta) (hi : delta ≤ 32767)
    (hc : (65536 : Int) ∣ delta - ((raw.toNat : Int) - (ref.toNat : Int))) : seqDelta ref raw = delta := by
  refine s16_unique lo hi ?_
  unfold low16
  omega

end

/-- A later SEQ.NEXT whose sum is a u32 accepts it: neither range exit can be taken (R163, R164). -/
theorem exec_seqNext_of_sum_inRange {s : State} {raw : Half} (hinit : s.initialized = true)
    (lo : 0 ≤ (s.refCseq.toNat : Int) + seqDelta s.refCseq raw)
    (hi : (s.refCseq.toNat : Int) + seqDelta s.refCseq raw ≤ 0xFFFFFFFF) :
    ∃ e : Word, (e.toNat : Int) = (s.refCseq.toNat : Int) + seqDelta s.refCseq raw ∧
      exec (.seqNext raw) s = .next (s.acceptSequence e) := by
  obtain ⟨hfirst, -⟩ | ⟨-, hok⟩ | ⟨-, hunder, -⟩ | ⟨-, hover, -⟩ := exec_seqNext_cases raw s
  · simp [hinit] at hfirst
  · exact hok
  · omega
  · omega

/-- Settles O40: `seqDelta` is such an integer, every such integer is `seqDelta`, and its sum is accepted. -/
theorem deltaIsTheUniqueSignedDifference : Obligations.DeltaIsTheUniqueSignedDifference := by
  unfold Obligations.DeltaIsTheUniqueSignedDifference
  intro s raw
  constructor
  · refine ⟨seqDelta s.refCseq raw, ⟨s16_lower _, s16_upper _, seqDelta_congruent _ _⟩, ?_⟩
    rintro delta ⟨lo, hi, hc⟩
    exact (seqDelta_unique _ _ lo hi hc).symm
  · intro delta lo hi hc
    obtain rfl := seqDelta_unique _ _ lo hi hc
    refine ⟨rfl, fun hinit hnonneg hmax => ?_⟩
    obtain ⟨e, he, hexec⟩ := exec_seqNext_of_sum_inRange hinit hnonneg hmax
    exact ⟨_, _, hexec, State.acceptSequence_resp s e, rfl, he⟩

/-- Settles O39: the first call accepts the zero-extended raw number, and `State.acceptSequence` is that update. -/
theorem firstSequenceNumberIsTaken : Obligations.FirstSequenceNumberIsTaken := by
  unfold Obligations.FirstSequenceNumberIsTaken
  intro s raw hfirst
  exact exec_seqNext_first hfirst

end Sys2Proof.Machine
end

