-- ==== Sys2Proof/Proofs/EncodedFields.lean ====
section
/-! SUPPORT. What PD.ENC answers, field by field (spec/41_descriptor_encode.md R131 to R138): which Descriptors fit,
where each byte of `descriptorBytes` stands and how many there are, and the proofs of O24 to O28 and O30 to O33. -/

namespace Sys2Proof.Machine

/-! ### Which Descriptors are accepted -/

section
variable {d d' : Descriptor} {s : State}

theorem fieldOutOfRange_eq_true_iff :
    fieldOutOfRange d = true ↔
      15 < d.pid ∨ (d.pictureidPresent = true ∧ 0x7FFF < d.pictureId) ∨ (d.tidPresent = true ∧ 3 < d.tid) ∨
        (d.keyidxPresent = true ∧ 31 < d.keyidx) := by
  simp [fieldOutOfRange, or_assoc]

theorem fieldOutOfRange_eq_false_iff :
    fieldOutOfRange d = false ↔
      d.pid ≤ 15 ∧ (d.pictureidPresent = true → d.pictureId ≤ 0x7FFF) ∧ (d.tidPresent = true → d.tid ≤ 3) ∧
        (d.keyidxPresent = true → d.keyidx ≤ 31) := by
  rw [← Bool.not_eq_true, fieldOutOfRange_eq_true_iff]
  simp only [not_or, not_and, BitVec.not_lt]

/-- A Descriptor in range is answered with its bytes (R43, R130). -/
theorem exec_pdEnc_of_fits (h : fieldOutOfRange d = false) :
    exec (.pdEnc d) s =
      .next (s.respond
        { status := .ok, out := windowOf (descriptorBytes d),
          outLen := BitVec.ofNat 3 (descriptorBytes d).length }) := by
  rw [exec_pdEnc_eq_respond, encodeResponse, encodeDescriptor_eq_cursorOf, h]
  rfl

theorem exec_pdEnc_of_outOfRange (h : fieldOutOfRange d = true) :
    exec (.pdEnc d) s = .next (s.raise .contractViolation .fieldRange) := by
  rw [exec_pdEnc_eq_respond, encodeResponse, encodeDescriptor_eq_cursorOf, h]
  rfl

/-- The range check and the bytes are all that PD.ENC sees of a Descriptor. -/
theorem exec_pdEnc_congr (hrange : fieldOutOfRange d' = fieldOutOfRange d)
    (hbytes : descriptorBytes d' = descriptorBytes d) : exec (.pdEnc d') s = exec (.pdEnc d) s := by
  rw [exec_pdEnc_eq_respond, exec_pdEnc_eq_respond, encodeResponse, encodeDescriptor_eq_cursorOf, hrange, hbytes,
    ← encodeDescriptor_eq_cursorOf, ← encodeResponse]

end

/-! ### Where each byte stands -/

/-- What an encoded descriptor with the extension byte has before TL0PICIDX (R75). -/
def bytesBeforeTl0picidx (d : Descriptor) : List Byte := packByte0 d :: packByte1 d :: pictureIdBytes d

/-- What an encoded descriptor with the extension byte has before the T/K byte (R75). -/
def bytesBeforeTk (d : Descriptor) : List Byte := bytesBeforeTl0picidx d ++ tl0picidxBytes d

/-- A listed byte stands in the window at the number of bytes before it. -/
theorem byteAt_windowOf_append_cons {l : List Byte} (v : Byte) (r : List Byte) (h : l.length < 6) :
    byteAt (windowOf (l ++ v :: r)) l.length = v := by
  rw [byteAt_windowOf _ h, List.getD_append_right _ _ _ _ le_rfl, Nat.sub_self, List.getD_cons_zero]

/-- The window is padded with 0 (R43). -/
theorem byteAt_windowOf_of_length_le {l : List Byte} {i : Nat} (h : l.length ≤ i) : byteAt (windowOf l) i = 0 := by
  by_cases hi : i < 6
  · rw [byteAt_windowOf _ hi, List.getD_eq_default _ _ h]
  · exact byteAt_of_six_le _ (Nat.not_lt.mp hi)

section
variable {d : Descriptor}

theorem descriptorBytes_of_derivedX (hx : derivedX d = true) :
    descriptorBytes d = bytesBeforeTk d ++ tkBytes d := by
  simp [descriptorBytes, hx, bytesBeforeTk, bytesBeforeTl0picidx]

theorem descriptorBytes_of_not_derivedX (hx : derivedX d = false) : descriptorBytes d = [packByte0 d] := by
  simp [descriptorBytes, hx]

theorem pictureIdBytes_absent (hi : d.pictureidPresent = false) : pictureIdBytes d = [] := by
  simp [pictureIdBytes, hi]

theorem pictureIdBytes_short (hi : d.pictureidPresent = true) (hs : d.pictureId ≤ 127) :
    pictureIdBytes d = [packPictureId1 d.pictureId] := by
  rw [pictureIdBytes, if_pos hi, if_pos hs]

theorem pictureIdBytes_long (hi : d.pictureidPresent = true) (hl : ¬ d.pictureId ≤ 127) :
    pictureIdBytes d = [packPictureIdHigh d.pictureId, packPictureIdLow d.pictureId] := by
  rw [pictureIdBytes, if_pos hi, if_neg hl]

theorem derivedX_of_pictureidPresent (hi : d.pictureidPresent = true) : derivedX d = true := by
  simp [derivedX, hi]

theorem derivedX_of_tl0picidxPresent (hl : d.tl0picidxPresent = true) : derivedX d = true := by
  simp [derivedX, hl]

theorem derivedX_of_tk (htk : (d.tidPresent || d.keyidxPresent) = true) : derivedX d = true := by
  rw [derivedX, Bool.or_assoc, htk, Bool.or_true]

variable (d)

theorem length_pictureIdBytes :
    (pictureIdBytes d).length = d.pictureidPresent.toNat * (1 + (decide (127 < d.pictureId)).toNat) := by
  cases hi : d.pictureidPresent with
  | false => simp [pictureIdBytes_absent hi]
  | true =>
    by_cases hs : d.pictureId ≤ 127
    · rw [pictureIdBytes_short hi hs, decide_eq_false (BitVec.not_lt.mpr hs)]
      rfl
    · rw [pictureIdBytes_long hi hs, decide_eq_true (BitVec.not_le.mp hs)]
      rfl

theorem length_tl0picidxBytes : (tl0picidxBytes d).length = d.tl0picidxPresent.toNat := by
  cases hl : d.tl0picidxPresent <;> simp [tl0picidxBytes, hl]

theorem length_tkBytes : (tkBytes d).length = (d.tidPresent || d.keyidxPresent).toNat := by
  cases htk : d.tidPresent || d.keyidxPresent <;> simp [tkBytes, htk]

theorem length_bytesBeforeTl0picidx : (bytesBeforeTl0picidx d).length = 2 + (pictureIdBytes d).length := by
  simp only [bytesBeforeTl0picidx, List.length_cons]
  omega

theorem length_bytesBeforeTl0picidx_le : (bytesBeforeTl0picidx d).length ≤ 4 := by
  have hwidth : (pictureIdBytes d).length ≤ 2 := by
    unfold pictureIdBytes
    split_ifs <;> simp
  have := length_bytesBeforeTl0picidx d
  omega

theorem length_bytesBeforeTk :
    (bytesBeforeTk d).length = (bytesBeforeTl0picidx d).length + d.tl0picidxPresent.toNat := by
  rw [bytesBeforeTk, List.length_append, length_tl0picidxBytes]

theorem length_bytesBeforeTk_le : (bytesBeforeTk d).length ≤ 5 := by
  rw [length_bytesBeforeTk]
  exact Nat.add_le_add (length_bytesBeforeTl0picidx_le d) (Bool.toNat_le _)

/-- The encoder writes DescLen of the flags that it writes (R77, R138). -/
theorem length_descriptorBytes :
    (descriptorBytes d).length =
      descLen (derivedX d) d.pictureidPresent (decide (127 < d.pictureId)) d.tl0picidxPresent d.tidPresent
        d.keyidxPresent := by
  cases hx : derivedX d with
  | false => simp [descriptorBytes_of_not_derivedX hx, descLen]
  | true =>
    rw [descriptorBytes_of_derivedX hx, List.length_append, length_bytesBeforeTk, length_bytesBeforeTl0picidx,
      length_pictureIdBytes, length_tkBytes]
    simp [descLen]

variable {d}

/-- TL0PICIDX stands behind the picture ID (R75). -/
theorem byteAt_tl0picidx (hl : d.tl0picidxPresent = true) :
    byteAt (windowOf (descriptorBytes d)) (bytesBeforeTl0picidx d).length = d.tl0picidx := by
  have hlen := length_bytesBeforeTl0picidx_le d
  rw [descriptorBytes_of_derivedX (derivedX_of_tl0picidxPresent hl), bytesBeforeTk, tl0picidxBytes, if_pos hl,
    List.append_assoc]
  exact byteAt_windowOf_append_cons _ _ (by omega)

/-- The T/K byte stands behind TL0PICIDX (R75). -/
theorem byteAt_tk (htk : (d.tidPresent || d.keyidxPresent) = true) :
    byteAt (windowOf (descriptorBytes d)) (bytesBeforeTk d).length = packTk d := by
  have hlen := length_bytesBeforeTk_le d
  rw [descriptorBytes_of_derivedX (derivedX_of_tk htk), tkBytes, if_pos htk]
  exact byteAt_windowOf_append_cons _ _ (by omega)

theorem byteAt_pictureIdShort (hi : d.pictureidPresent = true) (hs : d.pictureId ≤ 127) :
    (windowOf (descriptorBytes d))[2] = packPictureId1 d.pictureId := by
  simp [windowOf, descriptorBytes, derivedX_of_pictureidPresent hi, pictureIdBytes_short hi hs]

theorem byteAt_pictureIdLong (hi : d.pictureidPresent = true) (hl : ¬ d.pictureId ≤ 127) :
    (windowOf (descriptorBytes d))[2] = packPictureIdHigh d.pictureId ∧
      (windowOf (descriptorBytes d))[3] = packPictureIdLow d.pictureId := by
  simp [windowOf, descriptorBytes, derivedX_of_pictureidPresent hi, pictureIdBytes_long hi hl]

end

/-- Rule R77: the length formula's bounds. -/
theorem descLen_bounds (x i m l t k : Bool) : 1 ≤ descLen x i m l t k ∧ descLen x i m l t k ≤ 6 := by
  revert x i m l t k; decide

theorem length_descriptorBytes_le (d : Descriptor) : (descriptorBytes d).length ≤ 6 := by
  rw [length_descriptorBytes]
  exact (descLen_bounds ..).2

/-- A length of at most 6 fits the 3-bit port. -/
theorem toNat_ofNat_length (d : Descriptor) :
    (BitVec.ofNat 3 (descriptorBytes d).length).toNat = (descriptorBytes d).length := by
  have hlen := length_descriptorBytes_le d
  rw [BitVec.toNat_ofNat, Nat.mod_eq_of_lt (by omega)]

/-! ### Absent fields -/

/-- The Descriptor with other values in the fields whose flag is 0 (R137). -/
def withAbsentFields (d : Descriptor) (pictureId : Half) (tl0picidx tid keyidx : Byte) (layerSync : Bool) :
    Descriptor :=
  { d with
    pictureId := if d.pictureidPresent then d.pictureId else pictureId
    tl0picidx := if d.tl0picidxPresent then d.tl0picidx else tl0picidx
    tid := if d.tidPresent then d.tid else tid
    layerSync := if d.tidPresent then d.layerSync else layerSync
    keyidx := if d.keyidxPresent then d.keyidx else keyidx }

section
variable (d : Descriptor) (pictureId : Half) (tl0picidx tid keyidx : Byte) (layerSync : Bool)

theorem fieldOutOfRange_withAbsentFields :
    fieldOutOfRange (withAbsentFields d pictureId tl0picidx tid keyidx layerSync) = fieldOutOfRange d := by
  rw [Bool.eq_iff_iff, fieldOutOfRange_eq_true_iff, fieldOutOfRange_eq_true_iff]
  refine or_congr_right (or_congr (and_congr_right fun hi => ?_) (or_congr (and_congr_right fun ht => ?_)
    (and_congr_right fun hk => ?_)))
  · exact iff_of_eq (congrArg (0x7FFF < ·) (if_pos hi))
  · exact iff_of_eq (congrArg (3 < ·) (if_pos ht))
  · exact iff_of_eq (congrArg (31 < ·) (if_pos hk))

theorem pictureIdBytes_withAbsentFields :
    pictureIdBytes (withAbsentFields d pictureId tl0picidx tid keyidx layerSync) = pictureIdBytes d := by
  cases hi : d.pictureidPresent <;> simp [pictureIdBytes, withAbsentFields, hi]

theorem tl0picidxBytes_withAbsentFields :
    tl0picidxBytes (withAbsentFields d pictureId tl0picidx tid keyidx layerSync) = tl0picidxBytes d := by
  cases hl : d.tl0picidxPresent <;> simp [tl0picidxBytes, withAbsentFields, hl]

theorem packTk_withAbsentFields :
    packTk (withAbsentFields d pictureId tl0picidx tid keyidx layerSync) = packTk d := by
  cases ht : d.tidPresent <;> cases hk : d.keyidxPresent <;> simp [packTk, withAbsentFields, ht, hk]

theorem descriptorBytes_withAbsentFields :
    descriptorBytes (withAbsentFields d pictureId tl0picidx tid keyidx layerSync) = descriptorBytes d := by
  rw [descriptorBytes, descriptorBytes, tkBytes, pictureIdBytes_withAbsentFields, tl0picidxBytes_withAbsentFields,
    packTk_withAbsentFields]
  rfl

end

/-! ### The packed fields as numbers -/

theorem packPictureId1_toNat (p : Half) : (packPictureId1 p).toNat = p.toNat % 128 := by
  rw [packPictureId1, pictureIdByte_toNat, BitVec.extractLsb_toNat]
  simp only [Bool.toNat_false, Nat.shiftRight_eq_div_pow]
  omega

theorem packPictureIdHigh_toNat {p : Half} (h : p.toNat ≤ 0x7FFF) :
    (packPictureIdHigh p).toNat = 128 + p.toNat / 256 := by
  rw [packPictureIdHigh, pictureIdByte_toNat, BitVec.extractLsb_toNat]
  simp only [Bool.toNat_true, Nat.shiftRight_eq_div_pow]
  omega

theorem packPictureIdLow_toNat (p : Half) : (packPictureIdLow p).toNat = p.toNat % 256 := by
  rw [packPictureIdLow, BitVec.extractLsb_toNat]
  simp only [Nat.shiftRight_eq_div_pow]
  omega

theorem tidBits_toNat {tid : Byte} (h : tid ≤ 3) : (tid.extractLsb 1 0).toNat = tid.toNat := by
  revert tid; decide

theorem keyidxBits_toNat {keyidx : Byte} (h : keyidx ≤ 31) : (keyidx.extractLsb 4 0).toNat = keyidx.toNat := by
  revert keyidx; decide

/-- The T/K byte of a Descriptor in range (R136). -/
theorem packTk_toNat {d : Descriptor} (ht : d.tidPresent = true → d.tid ≤ 3)
    (hk : d.keyidxPresent = true → d.keyidx ≤ 31) :
    (packTk d).toNat =
      (if d.tidPresent then 64 * d.tid.toNat + 32 * d.layerSync.toNat else 0) +
        (if d.keyidxPresent then d.keyidx.toNat else 0) := by
  rw [packTk, tkByte_toNat]
  congr 1
  · split_ifs with hT
    · rw [tidBits_toNat (ht hT), hT, Bool.true_and]
    · simp [hT]
  · split_ifs with hK
    · rw [keyidxBits_toNat (hk hK)]
    · rfl

/-! ### The obligations -/

/-- Settles O24: every present field fits, so the encoder answers with the bytes of the Descriptor. -/
theorem encodeCompletes : Obligations.EncodeCompletes := by
  unfold Obligations.EncodeCompletes
  intro s d hpid hpic htid hkey
  exact exec_pdEnc_of_fits (fieldOutOfRange_eq_false_iff.mpr ⟨hpid, hpic, htid, hkey⟩)

/-- Settles O25: `fieldOutOfRange` is the condition of R131. -/
theorem encodeReportsFieldRange : Obligations.EncodeReportsFieldRange := by
  unfold Obligations.EncodeReportsFieldRange
  intro s d h
  exact exec_pdEnc_of_outOfRange (fieldOutOfRange_eq_true_iff.mpr h)

/-- Settles O26: neither the range check nor the bytes use the input's X. -/
theorem encodeIgnoresInputX : Obligations.EncodeIgnoresInputX := by
  unfold Obligations.EncodeIgnoresInputX
  intro s d x
  exact exec_pdEnc_congr rfl rfl

/-- Settles O27: the range check and the bytes ask for a field only behind its flag. -/
theorem encodeIgnoresAbsentFields : Obligations.EncodeIgnoresAbsentFields := by
  unfold Obligations.EncodeIgnoresAbsentFields
  intro s d pictureId tl0picidx tid keyidx layerSync
  exact exec_pdEnc_congr (fieldOutOfRange_withAbsentFields ..) (descriptorBytes_withAbsentFields ..)

/-- Settles O28: byte 0 is the packed byte 0, whose bits are the flags and the PID. -/
theorem encodedByteZero : Obligations.EncodedByteZero := by
  unfold Obligations.EncodedByteZero
  intro s t d r h hresp hok
  obtain ⟨-, rfl⟩ := exec_pdEnc_ok h hresp hok
  dsimp only
  rw [windowOf_descriptorBytes_zero]
  exact ⟨packByte0_bit7 d, flagByte_bit6 .., flagByte_bit5 .., flagByte_bit4 .., flagByte_low ..⟩

/-- Settles O30: the picture ID's bytes follow the extension byte in the form that its size calls for. -/
theorem encodedPictureIdIsShortest : Obligations.EncodedPictureIdIsShortest := by
  unfold Obligations.EncodedPictureIdIsShortest
  intro s t d r h hresp hok hi
  obtain ⟨hrange, rfl⟩ := exec_pdEnc_ok h hresp hok
  obtain ⟨-, hpic, -, -⟩ := fieldOutOfRange_eq_false_iff.mp hrange
  dsimp only
  split_ifs with hs
  · rw [byteAt_pictureIdShort hi hs, packPictureId1_toNat, Nat.mod_eq_of_lt (by omega)]
  · obtain ⟨h2, h3⟩ := byteAt_pictureIdLong hi hs
    rw [h2, h3]
    exact ⟨packPictureIdHigh_toNat (hpic hi), packPictureIdLow_toNat _⟩

/-- Settles O31: the length ends behind the T/K byte, which stands behind TL0PICIDX. -/
theorem encodedTrailingBytes : Obligations.EncodedTrailingBytes := by
  unfold Obligations.EncodedTrailingBytes
  intro s t d r h hresp hok
  obtain ⟨hrange, rfl⟩ := exec_pdEnc_ok h hresp hok
  obtain ⟨-, -, htid, hkey⟩ := fieldOutOfRange_eq_false_iff.mp hrange
  dsimp only
  rw [toNat_ofNat_length]
  have hlen : derivedX d = true →
      (descriptorBytes d).length = (bytesBeforeTk d).length + (d.tidPresent || d.keyidxPresent).toNat := fun hx => by
    rw [descriptorBytes_of_derivedX hx, List.length_append, length_tkBytes]
  constructor
  · intro htk
    rw [hlen (derivedX_of_tk htk), htk, Bool.toNat_true, Nat.add_sub_cancel, byteAt_tk htk, packTk_toNat htid hkey]
  · intro hl
    have hoff : (descriptorBytes d).length - 1 - (d.tidPresent || d.keyidxPresent).toNat =
        (bytesBeforeTl0picidx d).length := by
      rw [hlen (derivedX_of_tl0picidxPresent hl), length_bytesBeforeTk, hl, Bool.toNat_true]
      omega
    rw [hoff, byteAt_tl0picidx hl]

/-- Settles O32: the length is that of the bytes, and the window is padded from there on. -/
theorem encodedLengthIsMinimal : Obligations.EncodedLengthIsMinimal := by
  unfold Obligations.EncodedLengthIsMinimal
  intro s t d r h hresp hok
  obtain ⟨-, rfl⟩ := exec_pdEnc_ok h hresp hok
  dsimp only
  rw [toNat_ofNat_length]
  exact ⟨length_descriptorBytes d, fun i => byteAt_windowOf_of_length_le⟩

/-- Settles O33: the bounds, and the one way to have all parts, over the flags' values. -/
theorem descriptorLengthBounds : Obligations.DescriptorLengthBounds := by
  unfold Obligations.DescriptorLengthBounds
  intro x i m l t k
  exact ⟨(descLen_bounds ..).1, (descLen_bounds ..).2, by revert x i m l t k; decide⟩

end Sys2Proof.Machine
end

