-- ==== Sys2Proof/Proofs/DecodedFields.lean ====
section
/-! SUPPORT. PD.DEC's three outcomes as rules of their own (spec/40_descriptor_decode.md R100, R105 to R107), the bits
that no outcome depends on, the range of what is decoded (R111), and the proofs of O12, O14 to O16, O20, O21 and O23. -/

namespace Sys2Proof.Machine

/-! ### The outcomes -/

section
variable {s t : State} {len : Nat} {w : Window} {r : Response}

/-- A whole descriptor, and no reserved bit seen: the Descriptor that the bytes spell (R104). -/
theorem exec_pdDec_whole (hres : reservedBitSeen s.cfg.strict len w = false) (hlen : wireLen w ≤ len) :
    exec (.pdDec len w) s =
      .next (s.respond { status := .ok, desc := wireDescriptor w, consumed := BitVec.ofNat 3 (wireLen w) }) := by
  rw [exec_pdDec_eq_respond, decodeResponse, decodeDescriptor_eq_wire, hres, if_neg Bool.false_ne_true, if_pos hlen]

/-- A reserved bit seen comes before every missing byte (R107). -/
theorem exec_pdDec_reserved (hres : reservedBitSeen s.cfg.strict len w = true) :
    exec (.pdDec len w) s = .next (s.raise .invalidPayloadDescriptor .reservedBit) := by
  rw [exec_pdDec_eq_respond, decodeResponse, decodeDescriptor_eq_wire, hres, if_pos rfl]
  rfl

theorem reservedBitSeen_of_reason (h : exec (.pdDec len w) s = .next t) (hresp : t.resp = some r)
    (hreason : r.reason = .reservedBit) : reservedBitSeen s.cfg.strict len w = true := by
  by_contra hres
  rw [Bool.not_eq_true] at hres
  by_cases hlen : wireLen w ≤ len
  · cases (exec_pdDec_whole hres hlen).symm.trans h
    cases hresp
    cases hreason
  · cases (exec_pdDec_truncated hres (Nat.not_le.mp hlen)).symm.trans h
    cases hresp
    cases hreason

theorem not_reservedBitSeen_of_ok (h : exec (.pdDec len w) s = .next t) (hresp : t.resp = some r)
    (hok : r.status = .ok) : reservedBitSeen s.cfg.strict len w = false := by
  by_contra hres
  rw [Bool.not_eq_false] at hres
  cases (exec_pdDec_reserved hres).symm.trans h
  cases hresp
  cases hok

theorem reservedBitSeen_lenient : reservedBitSeen false len w = false := rfl

/-- No reserved bit of a byte that a strict decoder reads is 1. -/
theorem reservedBitSeen_eq_false {strict : Bool}
    (h : strict = true → w[0].getLsbD 6 = false ∧ (wireX w = true → w[1] &&& 0x0F = 0)) :
    reservedBitSeen strict len w = false := by
  refine Bool.eq_false_iff.mpr fun hseen => ?_
  obtain ⟨hs, hbits⟩ := (reservedBitSeen_iff _ _ _).mp hseen
  obtain ⟨h0, h1⟩ := h hs
  obtain ⟨-, hset⟩ | ⟨hx, -, hset⟩ := hbits
  · exact Bool.false_ne_true (h0.symm.trans hset)
  · exact hset (h1 hx)

/-- A 3-bit port holds DescLen. -/
theorem toNat_ofNat_wireLen (w : Window) : (BitVec.ofNat 3 (wireLen w)).toNat = wireLen w := by
  have hsix := wireLen_le_six w
  rw [BitVec.toNat_ofNat, Nat.mod_eq_of_lt (by omega)]

end

/-! ### The bits that change nothing -/

section
variable {w w' : Window}

theorem two_le_wireOffTl0 (w : Window) : 2 ≤ wireOffTl0 w := Nat.le_add_right _ _

theorem two_le_wireOffTk (w : Window) : 2 ≤ wireOffTk w := (two_le_wireOffTl0 w).trans (wireOffTl0_le_wireOffTk w)

/-- The two windows spell the same flags (R71, R72), so that their fields stand at the same offsets (R75). -/
structure SameLayout (w w' : Window) : Prop where
  x : wireX w = wireX w'
  i : wireI w = wireI w'
  m : wireM w = wireM w'
  l : wireL w = wireL w'
  t : wireT w = wireT w'
  k : wireK w = wireK w'

namespace SameLayout

theorem wireLen_eq (h : SameLayout w w') : wireLen w = wireLen w' := by
  simp only [wireLen, h.x, h.i, h.m, h.l, h.t, h.k]

theorem wireOffTl0_eq (h : SameLayout w w') : wireOffTl0 w = wireOffTl0 w' := by
  simp only [wireOffTl0, wirePictureIdWidth, h.i, h.m]

theorem wireOffTk_eq (h : SameLayout w w') : wireOffTk w = wireOffTk w' := by
  simp only [wireOffTk, wirePictureIdWidth, h.i, h.m, h.l]

/-- The flags come from bytes 0, 1 and, where I = 1, 2. -/
theorem of_bytes (h0 : w[0] = w'[0]) (h1 : w[1] = w'[1]) (h2 : wireI w = true → w[2] = w'[2]) : SameLayout w w' := by
  have hx : wireX w = wireX w' := by rw [wireX, wireX, h0]
  have hi : wireI w = wireI w' := by rw [wireI, wireI, hx, h1]
  refine ⟨hx, hi, ?_, by rw [wireL, wireL, hx, h1], by rw [wireT, wireT, hx, h1], by rw [wireK, wireK, hx, h1]⟩
  cases hI : wireI w with
  | false => rw [wireM, wireM, ← hi, hI, Bool.false_and, Bool.false_and]
  | true => rw [wireM, wireM, hi, h2 hI]

/-- Equal Descriptors have equal flags; M is the one flag that a Descriptor does not have. -/
theorem of_wireDescriptor_eq (hd : wireDescriptor w = wireDescriptor w') (h2 : w[2] = w'[2]) : SameLayout w w' := by
  have hi : wireI w = wireI w' := congrArg Descriptor.pictureidPresent hd
  exact ⟨congrArg Descriptor.extendedControlBitsPresent hd, hi, by rw [wireM, wireM, hi, h2],
    congrArg Descriptor.tl0picidxPresent hd, congrArg Descriptor.tidPresent hd, congrArg Descriptor.keyidxPresent hd⟩

end SameLayout

/-- A lenient decoder does not see the reserved bits (R106). -/
theorem decodeDescriptor_lenient_eq_of_reserved (len : Nat) (h0 : w[0] &&& (0xBF : Byte) = w'[0] &&& 0xBF)
    (h1 : w[1] &&& (0xF0 : Byte) = w'[1] &&& 0xF0) (hrest : ∀ i, 2 ≤ i → byteAt w i = byteAt w' i) :
    decodeDescriptor false len w = decodeDescriptor false len w' := by
  have hd := wireDescriptor_eq_of_reserved h0 h1 hrest
  have hbyte2 : w[2] = w'[2] := by simpa using hrest 2 le_rfl
  rw [decodeDescriptor_eq_wire, decodeDescriptor_eq_wire, hd, (SameLayout.of_wireDescriptor_eq hd hbyte2).wireLen_eq,
    reservedBitSeen_lenient, reservedBitSeen_lenient]

/-- The TID and Y bits are in every mask that T gives (R74). -/
theorem tid_eq_of_and_eq {a b k : Byte} (h : a &&& (0xE0 ||| k) = b &&& (0xE0 ||| k)) :
    a >>> 6 = b >>> 6 ∧ a.getLsbD 5 = b.getLsbD 5 := by
  have bits : ∀ i, (0xE0 : Byte).getLsbD i = true → a.getLsbD i = b.getLsbD i := fun i hi =>
    getLsbD_eq_of_and_eq h (by rw [BitVec.getLsbD_or, hi, Bool.true_or])
  refine ⟨BitVec.eq_of_getLsbD_eq fun i _ => ?_, bits 5 (by decide)⟩
  rw [BitVec.getLsbD_ushiftRight, BitVec.getLsbD_ushiftRight]
  by_cases h2 : i < 2
  · exact bits (6 + i) (by interval_cases i <;> decide)
  · rw [BitVec.getLsbD_of_ge _ _ (by omega), BitVec.getLsbD_of_ge _ _ (by omega)]

/-- The KEYIDX bits are in every mask that K gives (R74). -/
theorem keyidx_eq_of_and_eq {a b k : Byte} (h : a &&& (k ||| 0x1F) = b &&& (k ||| 0x1F)) :
    a &&& 0x1F = b &&& 0x1F := by
  refine BitVec.eq_of_getLsbD_eq fun i _ => ?_
  rw [BitVec.getLsbD_and, BitVec.getLsbD_and]
  cases hi : (0x1F : Byte).getLsbD i with
  | false => rw [Bool.and_false, Bool.and_false]
  | true => rw [getLsbD_eq_of_and_eq h (by rw [BitVec.getLsbD_or, hi, Bool.or_true])]

section
variable (hrest : ∀ i, i ≠ wireOffTk w → byteAt w i = byteAt w' i)
include hrest

theorem byteAt_eq_of_lt_wireOffTk {i : Nat} (hi : i < wireOffTk w) : byteAt w i = byteAt w' i := hrest i hi.ne

/-- The T/K byte has no flag. -/
theorem sameLayout_of_tk : SameLayout w w' := by
  have hoff := two_le_wireOffTk w
  refine SameLayout.of_bytes ?_ ?_ fun hi => ?_
  · simpa using byteAt_eq_of_lt_wireOffTk hrest (i := 0) (by omega)
  · simpa using byteAt_eq_of_lt_wireOffTk hrest (i := 1) (by omega)
  · have hafter : 2 < wireOffTk w := by simp only [wireOffTk, wirePictureIdWidth, hi, Bool.toNat_true]; omega
    simpa using byteAt_eq_of_lt_wireOffTk hrest hafter

/-- The picture ID stands before the T/K byte. -/
theorem wirePictureId_eq_of_tk : (wireDescriptor w).pictureId = (wireDescriptor w').pictureId := by
  have hlay := sameLayout_of_tk hrest
  simp only [wireDescriptor, ← hlay.i, ← hlay.m]
  cases hi : wireI w with
  | false => simp [wireM, hi]
  | true =>
    have hafter2 : 2 < wireOffTk w := by simp only [wireOffTk, wirePictureIdWidth, hi, Bool.toNat_true]; omega
    have hbyte2 : w[2] = w'[2] := by simpa using byteAt_eq_of_lt_wireOffTk hrest hafter2
    cases hm : wireM w with
    | false => simp [hbyte2]
    | true =>
      have hafter3 : 3 < wireOffTk w := by simp only [wireOffTk, wirePictureIdWidth, hi, hm, Bool.toNat_true]; omega
      have hbyte3 : w[3] = w'[3] := by simpa using byteAt_eq_of_lt_wireOffTk hrest hafter3
      rw [hbyte2, hbyte3]

/-- TL0PICIDX stands before the T/K byte. -/
theorem wireTl0picidx_eq_of_tk : (wireDescriptor w).tl0picidx = (wireDescriptor w').tl0picidx := by
  have hlay := sameLayout_of_tk hrest
  simp only [wireDescriptor, ← hlay.l, ← hlay.wireOffTl0_eq]
  cases hl : wireL w with
  | false => rfl
  | true =>
    have hafter : wireOffTl0 w < wireOffTk w := by
      rw [wireOffTk, ← wireOffTl0, hl]
      exact Nat.lt_succ_self _
    rw [byteAt_eq_of_lt_wireOffTk hrest hafter]

/-- Windows that differ in the T/K byte alone, and there in bits without meaning, spell the same Descriptor (R74,
R108). -/
theorem wireDescriptor_eq_of_tk
    (htk : byteAt w (wireOffTk w) &&& wireTkMask w = byteAt w' (wireOffTk w) &&& wireTkMask w) :
    wireDescriptor w = wireDescriptor w' := by
  have hlay := sameLayout_of_tk hrest
  have hbyte0 : w[0] = w'[0] := by
    simpa using byteAt_eq_of_lt_wireOffTk hrest (i := 0) (Nat.lt_of_lt_of_le Nat.two_pos (two_le_wireOffTk w))
  have htid : wireT w = true → byteAt w (wireOffTk w) >>> 6 = byteAt w' (wireOffTk w) >>> 6 ∧
      (byteAt w (wireOffTk w)).getLsbD 5 = (byteAt w' (wireOffTk w)).getLsbD 5 := fun h => by
    rw [wireTkMask, h, if_pos rfl] at htk
    exact tid_eq_of_and_eq htk
  have hkeyidx : wireK w = true → byteAt w (wireOffTk w) &&& 0x1F = byteAt w' (wireOffTk w) &&& 0x1F := fun h => by
    rw [wireTkMask, h, if_pos rfl] at htk
    exact keyidx_eq_of_and_eq htk
  have hpic := wirePictureId_eq_of_tk hrest
  have htl0 := wireTl0picidx_eq_of_tk hrest
  simp only [wireDescriptor, Descriptor.mk.injEq, ← hlay.x, ← hlay.i, ← hlay.l, ← hlay.t, ← hlay.k, ← hlay.wireOffTk_eq,
    hbyte0, true_and] at hpic htl0 ⊢
  refine ⟨hpic, htl0, ?_, ?_, ?_⟩
  · exact ite_congr rfl (fun h => (htid h).1) fun _ => rfl
  · cases h : wireT w with
    | false => rfl
    | true => rw [(htid h).2]
  · exact ite_congr rfl hkeyidx fun _ => rfl

/-- The bits of the T/K byte without meaning do not enter a decode, strict or not (R106). -/
theorem decodeDescriptor_eq_of_tk (strict : Bool) (len : Nat)
    (htk : byteAt w (wireOffTk w) &&& wireTkMask w = byteAt w' (wireOffTk w) &&& wireTkMask w) :
    decodeDescriptor strict len w = decodeDescriptor strict len w' := by
  have hoff := two_le_wireOffTk w
  have hbyte0 : w[0] = w'[0] := by simpa using byteAt_eq_of_lt_wireOffTk hrest (i := 0) (by omega)
  have hbyte1 : w[1] = w'[1] := by simpa using byteAt_eq_of_lt_wireOffTk hrest (i := 1) (by omega)
  have hlay := sameLayout_of_tk hrest
  have hres : reservedBitSeen strict len w = reservedBitSeen strict len w' := by
    rw [reservedBitSeen, reservedBitSeen, hbyte0, hbyte1, hlay.x]
  rw [decodeDescriptor_eq_wire, decodeDescriptor_eq_wire, hres, hlay.wireLen_eq, wireDescriptor_eq_of_tk hrest htk]

end

end

/-! ### The range of what is decoded -/

theorem highNibble_eq_zero_iff (b : Byte) :
    b &&& 0xF0 = 0 ↔ b.getLsbD 7 = false ∧ b.getLsbD 6 = false ∧ b.getLsbD 5 = false ∧ b.getLsbD 4 = false := by
  revert b; decide

theorem lowNibble_le (b : Byte) : b &&& 0x0F ≤ 15 := by revert b; decide

theorem reportedBits_eq_zero_iff (b : Byte) :
    b &&& 0xBF = 0 ↔ b.getLsbD 7 = false ∧ b.getLsbD 5 = false ∧ b.getLsbD 4 = false ∧ b &&& 0x0F = 0 := by
  revert b; decide

theorem pictureIdOf1_le (p0 : Byte) : pictureIdOf1 p0 ≤ 127 := by
  have hvalue := pictureIdOf1_toNat p0
  have hle : (pictureIdOf1 p0).toNat ≤ 127 := by omega
  exact hle

theorem pictureIdOf2_le (p0 p1 : Byte) : pictureIdOf2 p0 p1 ≤ 0x7FFF := by
  have hvalue := pictureIdOf2_toNat p0 p1
  have hle : (pictureIdOf2 p0 p1).toNat ≤ 0x7FFF := by omega
  exact hle

theorem tidBits_le (b : Byte) : b >>> 6 ≤ 3 := by revert b; decide

theorem keyidxBits_le (b : Byte) : b &&& 0x1F ≤ 31 := by revert b; decide

section
variable (w : Window)

/-- The picture ID that a window spells, by the forms of R72. -/
theorem wireDescriptor_pictureId_eq :
    (wireDescriptor w).pictureId =
      if wireM w then pictureIdOf2 w[2] w[3] else if wireI w then pictureIdOf1 w[2] else 0 := by
  simp only [wireDescriptor, pictureIdOf1_eq_mask, pictureIdOf2_eq_mask]

theorem wireDescriptor_pictureIdFits : (wireDescriptor w).pictureIdFits = true := by
  have hi : (wireDescriptor w).pictureidPresent = wireI w := rfl
  rw [Descriptor.pictureIdFits, wireDescriptor_pictureId_eq, hi, wireM]
  cases hI : wireI w with
  | false => rfl
  | true =>
    rw [Bool.true_and, if_pos rfl, if_pos rfl, decide_eq_true_eq]
    split_ifs
    · exact pictureIdOf2_le _ _
    · exact BitVec.le_trans (pictureIdOf1_le _) (by decide)

theorem wireDescriptor_tl0Fits : (wireDescriptor w).tl0Fits = true := by
  cases hl : wireL w <;> simp [Descriptor.tl0Fits, wireDescriptor, hl]

theorem wireDescriptor_tidFits : (wireDescriptor w).tidFits = true := by
  cases ht : wireT w with
  | false => simp [Descriptor.tidFits, wireDescriptor, ht]
  | true =>
    have hflag : (wireDescriptor w).tidPresent = true := ht
    have hvalue : (wireDescriptor w).tid = byteAt w (wireOffTk w) >>> 6 := if_pos ht
    rw [Descriptor.tidFits, if_pos hflag, hvalue]
    exact decide_eq_true (tidBits_le _)

theorem wireDescriptor_keyidxFits : (wireDescriptor w).keyidxFits = true := by
  cases hk : wireK w with
  | false => simp [Descriptor.keyidxFits, wireDescriptor, hk]
  | true =>
    have hflag : (wireDescriptor w).keyidxPresent = true := hk
    have hvalue : (wireDescriptor w).keyidx = byteAt w (wireOffTk w) &&& 0x1F := if_pos hk
    rw [Descriptor.keyidxFits, if_pos hflag, hvalue]
    exact decide_eq_true (keyidxBits_le _)

/-- Every Descriptor that a window spells fits the wire (R111). -/
theorem wireDescriptor_fieldsFit : (wireDescriptor w).fieldsFit = true := by
  have hpid : (wireDescriptor w).pidFits = true := decide_eq_true (lowNibble_le w[0])
  simp only [Descriptor.fieldsFit, hpid, wireDescriptor_pictureIdFits, wireDescriptor_tl0Fits, wireDescriptor_tidFits,
    wireDescriptor_keyidxFits, Bool.and_self]

/-- A window's X and field flags disagree only where the extension byte is empty (R109, R111). -/
theorem wireDescriptor_flagsConsistent_eq_false_iff :
    (wireDescriptor w).flagsConsistent = false ↔ w[0].getLsbD 7 = true ∧ w[1] &&& 0xF0 = 0 := by
  have hflags : (wireDescriptor w).flagsConsistent = (wireX w == (wireI w || wireL w || wireT w || wireK w)) := rfl
  have hbit : w[0].getLsbD 7 = wireX w := rfl
  rw [hflags, highNibble_eq_zero_iff, hbit, wireI, wireL, wireT, wireK]
  cases wireX w with
  | false => simp
  | true => simp [and_assoc]

/-- Byte 0 alone spells the zero descriptor (R29). -/
theorem wireDescriptor_eq_zero_iff : wireDescriptor w = Descriptor.zero ↔ w[0] &&& 0xBF = 0 := by
  rw [reportedBits_eq_zero_iff]
  constructor
  · intro hd
    exact ⟨congrArg Descriptor.extendedControlBitsPresent hd, congrArg Descriptor.nonReferenceFrame hd,
      congrArg Descriptor.startOfPartition hd, congrArg Descriptor.pid hd⟩
  · rintro ⟨hx, hn, hs, hpid⟩
    rw [← unpackByte0_eq_wireDescriptor hx, unpackByte0, lowNibble_eq_mask, hpid, bit, bit, bit, hx, hn, hs]
    rfl

end

/-! ### The obligations -/

/-- Settles O12: no reserved bit is seen, and the bytes are all there. -/
theorem decodeCompletes : Obligations.DecodeCompletes := by
  unfold Obligations.DecodeCompletes
  intro s len w hlen hstrict
  exact exec_pdDec_whole (reservedBitSeen_eq_false hstrict) hlen

/-- Settles O14: the two strict clauses are reserved bits seen; the others are bits that the decoder as a whole does
not see. -/
theorem reservedBitsCheckedOnlyWhenStrict : Obligations.ReservedBitsCheckedOnlyWhenStrict := by
  unfold Obligations.ReservedBitsCheckedOnlyWhenStrict
  refine ⟨fun s len w hs hlen hbit => ?_, fun s len w hs hlen hbit hx hbits => ?_,
    fun s len w w' hs h0 h1 hrest => exec_pdDec_eq_of_decode_eq ?_,
    fun s len w w' hrest htk => exec_pdDec_eq_of_decode_eq ?_⟩
  · exact exec_pdDec_reserved ((reservedBitSeen_iff _ _ _).mpr ⟨hs, .inl ⟨hlen, hbit⟩⟩)
  · exact exec_pdDec_reserved ((reservedBitSeen_iff _ _ _).mpr ⟨hs, .inr ⟨hx, hlen, hbits⟩⟩)
  · rw [hs]
    exact decodeDescriptor_lenient_eq_of_reserved len h0 h1 hrest
  · exact decodeDescriptor_eq_of_tk hrest _ len htk

/-- Settles O15: a reserved bit seen is the only source of that reason. -/
theorem reservedBitReportedOnlyWhenSet : Obligations.ReservedBitReportedOnlyWhenSet := by
  unfold Obligations.ReservedBitReportedOnlyWhenSet
  intro s t len w r h hresp hreason
  obtain ⟨hs, hbits⟩ := (reservedBitSeen_iff _ _ _).mp (reservedBitSeen_of_reason h hresp hreason)
  exact ⟨hs, hbits.imp_right fun ⟨hx, hlen, hne⟩ => ⟨hlen, hx, hne⟩⟩

/-- Settles O16: a descriptor has at most 6 bytes. -/
theorem longPayloadActsAsSixBytes : Obligations.LongPayloadActsAsSixBytes := by
  unfold Obligations.LongPayloadActsAsSixBytes
  intro s len w hlen
  have hsix := wireLen_le_six w
  exact exec_pdDec_eq_of_descriptor_eq (hsix.trans hlen) hsix fun _ _ => rfl

/-- Settles O20: the two forms as numbers. -/
theorem pictureIdFormsDecode : Obligations.PictureIdFormsDecode := by
  unfold Obligations.PictureIdFormsDecode
  intro s t len w r h hresp hok hi
  obtain ⟨-, rfl⟩ := exec_pdDec_ok h hresp hok
  have hI : wireI w = true := hi
  dsimp only
  rw [wireDescriptor_pictureId_eq, wireM, hI, Bool.true_and, if_pos rfl]
  split_ifs
  · exact pictureIdOf2_toNat ..
  · exact pictureIdOf1_toNat _

/-- Settles O21: the ranges hold of every window's Descriptor, and DescLen lies between 1 and 6. -/
theorem decodedDescriptorIsInRange : Obligations.DecodedDescriptorIsInRange := by
  unfold Obligations.DecodedDescriptorIsInRange
  intro s t len w r h hresp hok
  obtain ⟨hlen, rfl⟩ := exec_pdDec_ok h hresp hok
  refine ⟨wireDescriptor_fieldsFit w, wireDescriptor_flagsConsistent_eq_false_iff w, ?_⟩
  dsimp only
  rw [toNat_ofNat_wireLen]
  exact ⟨one_le_wireLen w, le_min hlen (wireLen_le_six w)⟩

/-- Settles O23: byte 0 spells the zero descriptor in the bits that are reported. -/
theorem zeroDescriptorIsAlsoASuccess : Obligations.ZeroDescriptorIsAlsoASuccess := by
  unfold Obligations.ZeroDescriptorIsAlsoASuccess
  intro s len w
  constructor
  · rintro ⟨hlen, hbyte, hstrict⟩
    have hx : wireX w = false := ((reportedBits_eq_zero_iff _).mp hbyte).1
    have hone := wireLen_of_not_wireX hx
    have hres : reservedBitSeen s.cfg.strict len w = false :=
      reservedBitSeen_eq_false fun hs => ⟨hstrict hs, fun hset => absurd (hx.symm.trans hset) Bool.false_ne_true⟩
    refine ⟨_, _, exec_pdDec_whole hres (hone.trans_le hlen), rfl, rfl, (wireDescriptor_eq_zero_iff w).mpr hbyte, ?_⟩
    simp [hone]
  · rintro ⟨t, r, h, hresp, hok, hdesc, -⟩
    have hres := not_reservedBitSeen_of_ok h hresp hok
    obtain ⟨hlen, rfl⟩ := exec_pdDec_ok h hresp hok
    have hone := (one_le_wireLen w).trans hlen
    refine ⟨hone, (wireDescriptor_eq_zero_iff w).mp hdesc, fun hs => Bool.eq_false_iff.mpr fun hbit => ?_⟩
    have hseen := (reservedBitSeen_iff s.cfg.strict len w).mpr ⟨hs, .inl ⟨hone, hbit⟩⟩
    exact Bool.false_ne_true (hres.symm.trans hseen)

end Sys2Proof.Machine
end

