-- ==== Sys2Proof/Proofs/CommandPort.lean ====
section
/-! SUPPORT. What a presented command decodes to, what a step does by it, and what no step looks at: the response on the
port, the timing parameters, the operands of other formats (spec/10_state.md R23 to R26; spec/30_encoding.md R60 to
R64). The proofs of O2 to O8, O10, O11 and O38. -/

namespace Sys2Proof.Machine

/-! ### Decoding -/

theorem decode_encode (i : Instr) : decode (encode i) = .ok i := by
  cases i <;> simp [decode, encode, OpcodeRow.selects, OpcodeRow.pdDec, OpcodeRow.pdEnc, OpcodeRow.seqNext,
    OpcodeRow.seqReset]

theorem encode_op_of_decode {c : Command} {i : Instr} (h : decode c = .ok i) : (encode i).op = c.op := by
  obtain ⟨hop, hd⟩ | ⟨hop, hd⟩ | ⟨hop, hd⟩ | ⟨hop, hd⟩ | ⟨-, -, -, -, hd⟩ := decode_cases c
  all_goals cases hd.symm.trans h
  all_goals exact hop.symm

theorem decode_of_reserved {c : Command} (h : c.op = 0 ∨ 5 ≤ c.op.toNat) :
    decode c = .error (.reservedOp c.op) := by
  obtain ⟨hop, -⟩ | ⟨hop, -⟩ | ⟨hop, -⟩ | ⟨hop, -⟩ | ⟨-, -, -, -, hd⟩ := decode_cases c
  case inr.inr.inr.inr => exact hd
  all_goals
    rw [hop] at h
    exact absurd h (by decide)

/-- The op and the operand fields of its format are all that is decoded (R26, R62, R64). -/
theorem decode_congr {c c' : Command} (hop : c.op = c'.op)
    (hdec : c.op = 1 → c.decLen = c'.decLen ∧ c.decWin = c'.decWin) (henc : c.op = 2 → c.encDesc = c'.encDesc)
    (hseq : c.op = 3 → c.seqRaw = c'.seqRaw) : decode c = decode c' := by
  simp only [decode, ← hop, OpcodeRow.pdDec_selects, OpcodeRow.pdEnc_selects, OpcodeRow.seqNext_selects]
  split_ifs with h1 h2 h3
  · rw [(hdec h1).1, (hdec h1).2]
  · rw [henc h2]
  · rw [hseq h3]
  · rfl
  · rfl

/-! ### What a step does not look at -/

theorem step_idle {s : State} (h : s.inbox = []) : step s = .next s := by
  simp [step, takeCommand_nil h]

/-- The step sees a command through what it decodes to. -/
theorem step_congr {s : State} {c c' : Command} {rest : List Command} (h : decode c = decode c') :
    step (s.withProgram (c :: rest)) = step (s.withProgram (c' :: rest)) := by
  cases hd : decode c with
  | ok i => rw [step_of_decode_ok rfl hd, step_of_decode_ok rfl (h ▸ hd)]; rfl
  | error e => rw [step_of_decode_error rfl hd, step_of_decode_error rfl (h ▸ hd)]; rfl

/-- No instruction reads the response port, and every one writes it whole. -/
theorem exec_respond (i : Instr) (s : State) (r : Response) : exec i (s.respond r) = exec i s := by
  cases i with
  | pdDec len w => rw [exec_pdDec_eq_respond, exec_pdDec_eq_respond]; rfl
  | pdEnc d => rw [exec_pdEnc_eq_respond, exec_pdEnc_eq_respond]; rfl
  | seqNext raw => rfl
  | seqReset => rfl

/-- The state with other values of the parameters that no rule reads (R5, R251). -/
def State.withTiming (s : State) (lenBits latency : Nat) : State :=
  { s with cfg := { strict := s.cfg.strict, lenBits := lenBits, latency := latency } }

section
variable (lenBits latency : Nat)

theorem exec_withTiming (i : Instr) (s : State) :
    ∃ t, exec i s = .next t ∧ exec i (s.withTiming lenBits latency) = .next (t.withTiming lenBits latency) := by
  cases i with
  | pdDec len w => exact ⟨_, exec_pdDec_eq_respond len w s, exec_pdDec_eq_respond len w (s.withTiming lenBits latency)⟩
  | pdEnc d => exact ⟨_, exec_pdEnc_eq_respond d s, exec_pdEnc_eq_respond d (s.withTiming lenBits latency)⟩
  | seqNext raw =>
    cases hb : s.initialized with
    | false => exact ⟨_, exec_seqNext_first hb, exec_seqNext_first (s := s.withTiming lenBits latency) hb⟩
    | true =>
      cases he : extendSequence s.refCseq raw with
      | ok e => exact ⟨_, exec_seqNext_ok hb he, exec_seqNext_ok (s := s.withTiming lenBits latency) hb he⟩
      | error r => exact ⟨_, exec_seqNext_error hb he, exec_seqNext_error (s := s.withTiming lenBits latency) hb he⟩
  | seqReset => exact ⟨_, exec_seqReset s, exec_seqReset (s.withTiming lenBits latency)⟩

theorem step_withTiming {s t : State} (h : step s = .next t) :
    step (s.withTiming lenBits latency) = .next (t.withTiming lenBits latency) := by
  cases hs : s.inbox with
  | nil =>
    cases (step_idle hs).symm.trans h
    exact step_idle hs
  | cons c rest =>
    have hs' : (s.withTiming lenBits latency).inbox = c :: rest := hs
    cases hd : decode c with
    | ok i =>
      obtain ⟨u, hu, hu'⟩ := exec_withTiming lenBits latency i (s.withProgram rest)
      cases hu.symm.trans ((step_of_decode_ok hs hd).symm.trans h)
      exact (step_of_decode_ok hs' hd).trans hu'
    | error e =>
      cases (step_of_decode_error hs hd).symm.trans h
      exact step_of_decode_error hs' hd

end

theorem step_cfg {s t : State} (h : step s = .next t) : t.cfg = s.cfg := by
  obtain ⟨-, hidle⟩ | ⟨c, rest, i, -, -, hexec⟩ | ⟨c, rest, e, -, -, herror⟩ := step_cases s
  · cases hidle.symm.trans h
    rfl
  · obtain ⟨u, r, hu, hcfg, -, -⟩ := exec_frame i { s with inbox := rest }
    cases hu.symm.trans (hexec.symm.trans h)
    exact hcfg
  · cases herror.symm.trans h
    rfl

/-! ### The obligations -/

/-- Settles O2: the step of a command that decodes. -/
theorem stepRunsDecodedCommand : Obligations.StepRunsDecodedCommand := by
  unfold Obligations.StepRunsDecodedCommand
  intro s c rest i hs hd
  exact step_of_decode_ok hs hd

/-- Settles O3: no command is taken from an empty list. -/
theorem idleStepHoldsState : Obligations.IdleStepHoldsState := by
  unfold Obligations.IdleStepHoldsState
  exact fun s => step_idle

/-- Settles O4: a reserved op is the decoder's error, which the step answers. -/
theorem reservedOpAnswersIllegalOp : Obligations.ReservedOpAnswersIllegalOp := by
  unfold Obligations.ReservedOpAnswersIllegalOp
  intro s c rest hs hop
  exact step_of_decode_error hs (decode_of_reserved hop)

/-- Settles O5: the sixteen words, each evaluated. -/
theorem opcodeWordsDecode : Obligations.OpcodeWordsDecode := by
  unfold Obligations.OpcodeWordsDecode
  decide

/-- Settles O6: decoding inverts encoding, and the op of what was decoded is the op it came from. -/
theorem commandRoundTrip : Obligations.CommandRoundTrip := by
  unfold Obligations.CommandRoundTrip
  exact ⟨decode_encode, fun c i => encode_op_of_decode⟩

/-- Settles O7: the two commands decode alike. -/
theorem unusedOperandFieldsIgnored : Obligations.UnusedOperandFieldsIgnored := by
  unfold Obligations.UnusedOperandFieldsIgnored
  intro s c c' rest hop hdec henc hseq
  exact step_congr (decode_congr hop hdec henc hseq)

/-- Settles O8: every case of a step answers a next state. -/
theorem everyStepAnswersNext : Obligations.EveryStepAnswersNext := by
  unfold Obligations.EveryStepAnswersNext
  exact step_answers_next

/-- Settles O10: no case of a step writes the parameters. -/
theorem parametersNeverChange : Obligations.ParametersNeverChange := by
  unfold Obligations.ParametersNeverChange
  exact fun s t => step_cfg

/-- Settles O11: a step commutes with a change of the parameters that no rule reads. -/
theorem widthAndLatencyNeverMatter : Obligations.WidthAndLatencyNeverMatter := by
  unfold Obligations.WidthAndLatencyNeverMatter
  intro s t lenBits latency h
  exact step_withTiming lenBits latency h

/-- Settles O38: the first command leaves only a response, which the second does not read. -/
theorem codecIsIdempotent : Obligations.CodecIsIdempotent := by
  unfold Obligations.CodecIsIdempotent
  constructor
  · intro s t len w h
    cases (exec_pdDec_eq_respond len w s).symm.trans h
    rw [exec_respond, exec_pdDec_eq_respond]
  · intro s t d h
    cases (exec_pdEnc_eq_respond d s).symm.trans h
    rw [exec_respond, exec_pdEnc_eq_respond]

end Sys2Proof.Machine
end

