-- ==== Sys2Proof/Proofs/RoundTrip.lean ====
section
/-! SUPPORT. The wire layout reads back what `descriptorBytes` wrote (spec/41_descriptor_encode.md R139), and packing
the Descriptor of a window gives its normalised bytes (R140, R141): the proofs of O34 to O36 and O22. -/

namespace Sys2Proof.Machine

/-! ### Well-formed Descriptors -/

/-- What fits the wire is in range for the encoder (R28, R131). -/
theorem fieldOutOfRange_of_fieldsFit {d : Descriptor} (h : d.fieldsFit = true) : fieldOutOfRange d = false := by
  simp only [Descriptor.fieldsFit, Bool.and_eq_true] at h
  obtain ⟨⟨⟨⟨hpid, hpic⟩, -⟩, htid⟩, hkey⟩ := h
  refine fieldOutOfRange_eq_false_iff.mpr ⟨of_decide_eq_true hpid, fun hi => ?_, fun ht => ?_, fun hk => ?_⟩
  · rw [Descriptor.pictureIdFits, if_pos hi] at hpic
    exact of_decide_eq_true hpic
  · rw [Descriptor.tidFits, if_pos ht] at htid
    exact of_decide_eq_true htid
  · rw [Descriptor.keyidxFits, if_pos hk] at hkey
    exact of_decide_eq_true hkey

/-- The clauses of R28, as equations on the fields. -/
structure WellFormed (d : Descriptor) : Prop where
  pid_le : d.pid ≤ 15
  x_eq : d.extendedControlBitsPresent = derivedX d
  pictureId_le : d.pictureidPresent = true → d.pictureId ≤ 0x7FFF
  pictureId_absent : d.pictureidPresent = false → d.pictureId = 0
  tl0picidx_absent : d.tl0picidxPresent = false → d.tl0picidx = 0
  tid_le : d.tidPresent = true → d.tid ≤ 3
  tid_absent : d.tidPresent = false → d.tid = 0 ∧ d.layerSync = false
  keyidx_le : d.keyidxPresent = true → d.keyidx ≤ 31
  keyidx_absent : d.keyidxPresent = false → d.keyidx = 0

theorem WellFormed.inRange {d : Descriptor} (h : WellFormed d) : fieldOutOfRange d = false :=
  fieldOutOfRange_eq_false_iff.mpr ⟨h.pid_le, h.pictureId_le, h.tid_le, h.keyidx_le⟩

theorem wellFormed_of_eq_true {d : Descriptor} (h : d.wellFormed = true) : WellFormed d := by
  simp only [Descriptor.wellFormed, Bool.and_eq_true] at h
  obtain ⟨hfit, hx⟩ := h
  obtain ⟨hpid, hpic, htid, hkey⟩ := fieldOutOfRange_eq_false_iff.mp (fieldOutOfRange_of_fieldsFit hfit)
  simp only [Descriptor.fieldsFit, Bool.and_eq_true] at hfit
  obtain ⟨⟨⟨⟨-, hpicFits⟩, htl0Fits⟩, htidFits⟩, hkeyFits⟩ := hfit
  refine ⟨hpid, beq_iff_eq.mp hx, hpic, fun hi => ?_, fun hl => ?_, htid, fun ht => ?_, hkey, fun hk => ?_⟩
  · simpa [Descriptor.pictureIdFits, hi] using hpicFits
  · simpa [Descriptor.tl0Fits, hl] using htl0Fits
  · simpa [Descriptor.tidFits, ht] using htidFits
  · simpa [Descriptor.keyidxFits, hk] using hkeyFits

/-! ### Unpacking a packed byte, and packing an unpacked one -/

theorem pid_pack {pid : Byte} (h : pid ≤ 15) : (pid.extractLsb 3 0).setWidth 8 = pid := by revert pid; decide

theorem tid_pack {tid : Byte} (h : tid ≤ 3) : (tid.extractLsb 1 0).setWidth 8 = tid := by revert tid; decide

theorem keyidx_pack {keyidx : Byte} (h : keyidx ≤ 31) : (keyidx.extractLsb 4 0).setWidth 8 = keyidx := by
  revert keyidx; decide

section
variable (b : Byte)

theorem flagByte_of_byte :
    flagByte (b.getLsbD 7) false (b.getLsbD 5) (b.getLsbD 4) ((b &&& 0x0F).extractLsb 3 0) = b &&& 0xBF := by
  revert b; decide

theorem flagByte_of_byte_clear :
    flagByte false false (b.getLsbD 5) (b.getLsbD 4) ((b &&& 0x0F).extractLsb 3 0) = b &&& 0x3F := by
  revert b; decide

theorem flagByte_of_highNibble :
    flagByte (b.getLsbD 7) (b.getLsbD 6) (b.getLsbD 5) (b.getLsbD 4) 0 = b &&& 0xF0 := by
  revert b; decide

/-- The sub-fields that the flags give, unpacked and packed again, are the masked byte (R74). -/
theorem tkByte_of_byte (t k : Bool) :
    tkByte (if t then (if t then b >>> 6 else 0).extractLsb 1 0 else 0) (t && (t && b.getLsbD 5))
        (if k then (if k then b &&& 0x1F else 0).extractLsb 4 0 else 0) =
      b &&& ((if t then 0xE0 else 0) ||| (if k then 0x1F else 0)) := by
  revert b t k; decide

end

theorem packPictureId1_of1 {p0 : Byte} (h : p0.getLsbD 7 = false) : packPictureId1 (pictureIdOf1 p0) = p0 := by
  revert p0; decide

section
variable (p0 p1 : Byte)

theorem packPictureId1_of2 : packPictureId1 (pictureIdOf2 p0 p1) = p1 &&& 0x7F := by
  have hmask : (p1 &&& 0x7F).toNat = p1.toNat % 128 := by revert p1; decide
  apply BitVec.eq_of_toNat_eq
  rw [packPictureId1_toNat, pictureIdOf2_toNat, hmask]
  omega

theorem packPictureIdLow_of2 : packPictureIdLow (pictureIdOf2 p0 p1) = p1 := by
  apply BitVec.eq_of_toNat_eq
  rw [packPictureIdLow_toNat, pictureIdOf2_toNat]
  omega

variable {p0}

theorem packPictureIdHigh_of2 (h : p0.getLsbD 7 = true) : packPictureIdHigh (pictureIdOf2 p0 p1) = p0 := by
  have hp0 : p0.toNat = 128 + p0.toNat % 128 := by revert p0; decide
  apply BitVec.eq_of_toNat_eq
  rw [packPictureIdHigh_toNat (pictureIdOf2_le p0 p1), pictureIdOf2_toNat]
  omega

end

/-! ### Reading back what was written -/

section
variable (d : Descriptor)

/-- What PD.ENC leaves in the output window for a Descriptor in range. -/
def encodedWindow : Window := windowOf (descriptorBytes d)

theorem encodedWindow_zero : (encodedWindow d)[0] = packByte0 d := rfl

theorem wireX_encodedWindow : wireX (encodedWindow d) = derivedX d := packByte0_bit7 d

/-- A field flag is read back from the extension byte, which is there as soon as one is set. -/
theorem encodedWindow_flag {b : Bool} {i : Nat} (hbit : (packByte1 d).getLsbD i = b)
    (hx : b = true → derivedX d = true) :
    (wireX (encodedWindow d) && (encodedWindow d)[1].getLsbD i) = b := by
  rw [wireX_encodedWindow]
  cases h : derivedX d with
  | false =>
    rw [Bool.false_and]
    exact (Bool.eq_false_iff.mpr fun hb => Bool.false_ne_true (h.symm.trans (hx hb))).symm
  | true => rw [encodedWindow, windowOf_descriptorBytes_one h, Bool.true_and, hbit]

theorem wireI_encodedWindow : wireI (encodedWindow d) = d.pictureidPresent :=
  encodedWindow_flag d (flagByte_bit7 ..) derivedX_of_pictureidPresent

theorem wireL_encodedWindow : wireL (encodedWindow d) = d.tl0picidxPresent :=
  encodedWindow_flag d (flagByte_bit6 ..) derivedX_of_tl0picidxPresent

theorem wireT_encodedWindow : wireT (encodedWindow d) = d.tidPresent :=
  encodedWindow_flag d (flagByte_bit5 ..) fun h => derivedX_of_tk (by rw [h, Bool.true_or])

theorem wireK_encodedWindow : wireK (encodedWindow d) = d.keyidxPresent :=
  encodedWindow_flag d (flagByte_bit4 ..) fun h => derivedX_of_tk (by rw [h, Bool.or_true])

/-- M says that the 2-byte form was needed (R135). -/
theorem wireM_encodedWindow :
    wireM (encodedWindow d) = (d.pictureidPresent && decide (127 < d.pictureId)) := by
  rw [wireM, wireI_encodedWindow]
  cases hi : d.pictureidPresent with
  | false => rfl
  | true =>
    rw [Bool.true_and, Bool.true_and, encodedWindow]
    by_cases hs : d.pictureId ≤ 127
    · rw [byteAt_pictureIdShort hi hs, decide_eq_false (BitVec.not_lt.mpr hs)]
      exact pictureIdByte_m ..
    · rw [(byteAt_pictureIdLong hi hs).1, decide_eq_true (BitVec.not_le.mp hs)]
      exact pictureIdByte_m ..

theorem wireOffTl0_encodedWindow : wireOffTl0 (encodedWindow d) = (bytesBeforeTl0picidx d).length := by
  rw [wireOffTl0, wirePictureIdWidth, wireI_encodedWindow, wireM_encodedWindow, length_bytesBeforeTl0picidx,
    length_pictureIdBytes]
  cases d.pictureidPresent <;> simp

theorem wireOffTk_encodedWindow : wireOffTk (encodedWindow d) = (bytesBeforeTk d).length := by
  rw [wireOffTk, ← wireOffTl0, wireOffTl0_encodedWindow, wireL_encodedWindow, length_bytesBeforeTk]

theorem wireLen_encodedWindow : wireLen (encodedWindow d) = (descriptorBytes d).length := by
  rw [wireLen, wireX_encodedWindow, wireI_encodedWindow, wireM_encodedWindow, wireL_encodedWindow,
    wireT_encodedWindow, wireK_encodedWindow, length_descriptorBytes]
  cases d.pictureidPresent <;> simp [descLen]

/-- The encoder writes no reserved bit (R133, R134). -/
theorem reservedBitSeen_encodedWindow (strict : Bool) (len : Nat) :
    reservedBitSeen strict len (encodedWindow d) = false := by
  refine reservedBitSeen_eq_false fun _ => ⟨flagByte_bit6 .., fun hx => ?_⟩
  rw [wireX_encodedWindow] at hx
  rw [encodedWindow, windowOf_descriptorBytes_one hx, ← lowNibble_eq_mask, packByte1, flagByte_low]
  rfl

end

section
variable {d : Descriptor} (h : WellFormed d)
include h

theorem wirePictureId_encodedWindow : (wireDescriptor (encodedWindow d)).pictureId = d.pictureId := by
  rw [wireDescriptor_pictureId_eq, wireM_encodedWindow, wireI_encodedWindow]
  cases hi : d.pictureidPresent with
  | false => exact (h.pictureId_absent hi).symm
  | true =>
    rw [Bool.true_and, encodedWindow]
    by_cases hs : d.pictureId ≤ 127
    · rw [decide_eq_false (BitVec.not_lt.mpr hs), byteAt_pictureIdShort hi hs]
      exact pictureIdOf1_pack _ hs
    · obtain ⟨h2, h3⟩ := byteAt_pictureIdLong hi hs
      rw [decide_eq_true (BitVec.not_le.mp hs), h2, h3]
      exact pictureIdOf2_pack _ (h.pictureId_le hi)

theorem wireTl0picidx_encodedWindow : (wireDescriptor (encodedWindow d)).tl0picidx = d.tl0picidx := by
  simp only [wireDescriptor, wireL_encodedWindow, wireOffTl0_encodedWindow]
  split_ifs with hl
  · exact byteAt_tl0picidx hl
  · exact (h.tl0picidx_absent (Bool.not_eq_true _ ▸ hl)).symm

theorem wireTid_encodedWindow : (wireDescriptor (encodedWindow d)).tid = d.tid := by
  simp only [wireDescriptor, wireT_encodedWindow, wireOffTk_encodedWindow]
  split_ifs with ht
  · rw [encodedWindow, byteAt_tk (by rw [ht, Bool.true_or]), ← tidBits_eq_shift, packTk, tkByte_tid, if_pos ht]
    exact tid_pack (h.tid_le ht)
  · exact (h.tid_absent (Bool.not_eq_true _ ▸ ht)).1.symm

theorem wireLayerSync_encodedWindow : (wireDescriptor (encodedWindow d)).layerSync = d.layerSync := by
  simp only [wireDescriptor, wireT_encodedWindow, wireOffTk_encodedWindow]
  cases ht : d.tidPresent with
  | false => exact (h.tid_absent ht).2.symm
  | true =>
    rw [encodedWindow, byteAt_tk (by rw [ht, Bool.true_or]), packTk, tkByte_y, ht, Bool.true_and, Bool.true_and]

theorem wireKeyidx_encodedWindow : (wireDescriptor (encodedWindow d)).keyidx = d.keyidx := by
  simp only [wireDescriptor, wireK_encodedWindow, wireOffTk_encodedWindow]
  split_ifs with hk
  · rw [encodedWindow, byteAt_tk (by rw [hk, Bool.or_true]), ← keyidxBits_eq_mask, packTk, tkByte_keyidx, if_pos hk]
    exact keyidx_pack (h.keyidx_le hk)
  · exact (h.keyidx_absent (Bool.not_eq_true _ ▸ hk)).symm

/-- The layout reads back every field that the encoder wrote (R139). -/
theorem wireDescriptor_encodedWindow : wireDescriptor (encodedWindow d) = d := by
  have hx : wireX (encodedWindow d) = d.extendedControlBitsPresent := (wireX_encodedWindow d).trans h.x_eq.symm
  have hn : (encodedWindow d)[0].getLsbD 5 = d.nonReferenceFrame := flagByte_bit5 ..
  have hs : (encodedWindow d)[0].getLsbD 4 = d.startOfPartition := flagByte_bit4 ..
  have hpid : (encodedWindow d)[0] &&& 0x0F = d.pid := by
    rw [encodedWindow_zero, ← lowNibble_eq_mask, packByte0, flagByte_low]
    exact pid_pack h.pid_le
  have hpic := wirePictureId_encodedWindow h
  have htl0 := wireTl0picidx_encodedWindow h
  have htid := wireTid_encodedWindow h
  have hsync := wireLayerSync_encodedWindow h
  have hkey := wireKeyidx_encodedWindow h
  simp only [wireDescriptor] at hpic htl0 htid hsync hkey
  rw [wireDescriptor, hx, hn, hs, hpid, hpic, htl0, htid, hsync, hkey, wireI_encodedWindow, wireL_encodedWindow,
    wireT_encodedWindow, wireK_encodedWindow]

/-- Any window that begins with the encoder's bytes decodes, strict or not, to the Descriptor (R139). -/
theorem exec_pdDec_of_encoded {s : State} {len : Nat} {w : Window} (hlen : (descriptorBytes d).length ≤ len)
    (hbytes : ∀ i < (descriptorBytes d).length, byteAt w i = byteAt (encodedWindow d) i) :
    exec (.pdDec len w) s =
      .next (s.respond
        { status := .ok, desc := d, consumed := BitVec.ofNat 3 (descriptorBytes d).length }) := by
  rw [← wireLen_encodedWindow] at hlen hbytes ⊢
  rw [← exec_pdDec_eq_of_descriptor_eq hlen hlen fun i hi => (hbytes i hi).symm,
    exec_pdDec_whole (reservedBitSeen_encodedWindow d _ _) hlen, wireDescriptor_encodedWindow h]

end

/-! ### Packing what a window spells -/

section
variable (w : Window)

theorem derivedX_wireDescriptor : derivedX (wireDescriptor w) = (wireI w || wireL w || wireT w || wireK w) := rfl

/-- A field flag needs X = 1. -/
theorem wireX_of_derivedX (h : derivedX (wireDescriptor w) = true) : wireX w = true := by
  by_contra hx
  rw [Bool.not_eq_true] at hx
  rw [derivedX_wireDescriptor, wireI, wireL, wireT, wireK, hx] at h
  exact Bool.false_ne_true h

theorem packByte0_wireDescriptor :
    packByte0 (wireDescriptor w) = if derivedX (wireDescriptor w) then w[0] &&& 0xBF else w[0] &&& 0x3F := by
  split_ifs with h
  · have hx : w[0].getLsbD 7 = true := wireX_of_derivedX w h
    rw [packByte0, h, ← hx]
    exact flagByte_of_byte w[0]
  · rw [packByte0, Bool.eq_false_iff.mpr h]
    exact flagByte_of_byte_clear w[0]

theorem packByte1_wireDescriptor (hx : wireX w = true) : packByte1 (wireDescriptor w) = w[1] &&& 0xF0 := by
  simp only [packByte1, wireDescriptor, wireI, wireL, wireT, wireK, hx, Bool.true_and]
  exact flagByte_of_highNibble w[1]

theorem pictureIdBytes_wireDescriptor :
    pictureIdBytes (wireDescriptor w) =
      if wireI w then
        if wireM w then
          if pictureIdOf2 w[2] w[3] ≤ 127 then [w[3] &&& 0x7F] else [w[2], w[3]]
        else [w[2]]
      else [] := by
  have hpic := wireDescriptor_pictureId_eq w
  have hflag : (wireDescriptor w).pictureidPresent = wireI w := rfl
  rw [pictureIdBytes, hflag]
  cases hi : wireI w with
  | false => rfl
  | true =>
    have hbit : wireM w = w[2].getLsbD 7 := by rw [wireM, hi, Bool.true_and]
    rw [hi] at hpic
    cases hm : wireM w with
    | false =>
      rw [hpic, hm, if_pos rfl, if_neg Bool.false_ne_true, if_pos rfl, if_pos (pictureIdOf1_le _),
        packPictureId1_of1 (hbit.symm.trans hm)]
      rfl
    | true =>
      rw [hpic, hm, if_pos rfl, if_pos rfl, packPictureId1_of2, packPictureIdHigh_of2 _ (hbit.symm.trans hm),
        packPictureIdLow_of2]
      rfl

theorem packTk_wireDescriptor :
    packTk (wireDescriptor w) = byteAt w (wireOffTk w) &&& wireTkMask w :=
  tkByte_of_byte _ (wireT w) (wireK w)

/-- The encoder's bytes of a window's Descriptor are the window's, normalised (R140). -/
theorem descriptorBytes_wireDescriptor : descriptorBytes (wireDescriptor w) = normalizedBytes w := by
  rw [normalizedBytes, ← derivedX_wireDescriptor]
  cases hd : derivedX (wireDescriptor w) with
  | false => rw [descriptorBytes_of_not_derivedX hd, packByte0_wireDescriptor, hd]; rfl
  | true =>
    have htl0 : tl0picidxBytes (wireDescriptor w) = if wireL w then [byteAt w (wireOffTl0 w)] else [] := by
      cases hl : wireL w <;> simp [tl0picidxBytes, wireDescriptor, hl]
    have htk : tkBytes (wireDescriptor w) =
        if wireT w || wireK w then [byteAt w (wireOffTk w) &&& wireTkMask w] else [] := by
      rw [← packTk_wireDescriptor]
      rfl
    rw [descriptorBytes_of_derivedX hd, bytesBeforeTk, bytesBeforeTl0picidx, packByte0_wireDescriptor, hd,
      packByte1_wireDescriptor w (wireX_of_derivedX w hd), pictureIdBytes_wireDescriptor, htl0, htk]
    rfl

/-- A dropped extension byte and a shortened picture ID make a descriptor no longer (R77). -/
theorem descLen_mono {x x' i m m' l t k : Bool} (hx : x' = true → x = true)
    (hm : i = true → m' = true → m = true) : descLen x' i m' l t k ≤ descLen x i m l t k := by
  revert x x' i m m' l t k; decide

/-- Normalising never adds a byte (R141). -/
theorem length_normalizedBytes_le : (normalizedBytes w).length ≤ wireLen w := by
  rw [← descriptorBytes_wireDescriptor, length_descriptorBytes]
  refine descLen_mono (wireX_of_derivedX w) fun hi hlong => ?_
  by_contra hm
  have hI : wireI w = true := hi
  rw [wireDescriptor_pictureId_eq, if_neg hm, if_pos hI] at hlong
  exact absurd (of_decide_eq_true hlong) (BitVec.not_lt.mpr (pictureIdOf1_le _))

end

/-! ### The payload as a list of bytes -/

theorem toList_windowOf_take {l : List Byte} (h : l.length ≤ 6) : (windowOf l).toList.take l.length = l := by
  refine List.ext_getElem (by simp [h]) fun i _ hi => ?_
  have hbyte := byteAt_windowOf l (i := i) (by omega)
  rw [List.getD_eq_getElem _ _ hi] at hbyte
  rw [List.getElem_take, Vector.getElem_toList, ← hbyte, byteAt, Vector.getElem?_eq_getElem (by omega),
    Option.getD_some]

/-- A payload begins with its descriptor's bytes. -/
theorem byteAt_windowOf_append {l : List Byte} (r : List Byte) {i : Nat} (h : l.length ≤ 6) (hi : i < l.length) :
    byteAt (windowOf (l ++ r)) i = byteAt (windowOf l) i := by
  rw [byteAt_windowOf _ (by omega), byteAt_windowOf _ (by omega), List.getD_append _ _ _ _ hi]

/-- The payload is the bytes before the fragment (R43, R245). -/
theorem prependDescriptor_encoded (d : Descriptor) (fragment : List Byte) :
    prependDescriptor
        { status := .ok, out := windowOf (descriptorBytes d),
          outLen := BitVec.ofNat 3 (descriptorBytes d).length } fragment = descriptorBytes d ++ fragment := by
  rw [prependDescriptor]
  dsimp only
  rw [toNat_ofNat_length, toList_windowOf_take (length_descriptorBytes_le d)]

/-! ### The obligations -/

/-- Settles O34: the encoder's own window spells the Descriptor, and any other that begins with its bytes decodes
alike. -/
theorem decodeAfterEncode : Obligations.DecodeAfterEncode := by
  unfold Obligations.DecodeAfterEncode
  intro s d hwf
  have h := wellFormed_of_eq_true hwf
  refine ⟨_, _, exec_pdEnc_of_fits h.inRange, rfl, rfl, fun s' len w hlen hbytes => ?_⟩
  rw [toNat_ofNat_length] at hlen hbytes
  exact exec_pdDec_of_encoded h hlen hbytes

/-- Settles O35: what a window spells fits the wire, and its bytes are the window's, normalised. -/
theorem encodeAfterDecode : Obligations.EncodeAfterDecode := by
  unfold Obligations.EncodeAfterDecode
  intro s t len w r h hresp hok
  obtain ⟨-, rfl⟩ := exec_pdDec_ok h hresp hok
  refine ⟨_, _, exec_pdEnc_of_fits (fieldOutOfRange_of_fieldsFit (wireDescriptor_fieldsFit w)), rfl, rfl, ?_⟩
  dsimp only
  rw [toNat_ofNat_length, toNat_ofNat_wireLen, descriptorBytes_wireDescriptor]
  exact ⟨rfl, rfl, length_normalizedBytes_le w⟩

/-- Settles O36: the payload begins with the encoder's bytes, and `consumed` is their number. -/
theorem packetRoundTrip : Obligations.PacketRoundTrip := by
  unfold Obligations.PacketRoundTrip
  intro s s' d fragment hwf
  have h := wellFormed_of_eq_true hwf
  have hsend := (step_of_decode_ok (s := s.withProgram (transmitPacket d)) rfl (decode_encode (.pdEnc d))).trans
    (exec_pdEnc_of_fits h.inRange)
  have hlen : (descriptorBytes d).length ≤ (descriptorBytes d ++ fragment).length := by simp
  have hreceive := (step_of_decode_ok (s := s'.withProgram [decodePacket (descriptorBytes d ++ fragment)]) rfl
    (decode_encode (.pdDec _ _))).trans
    (exec_pdDec_of_encoded h hlen fun i => byteAt_windowOf_append fragment (length_descriptorBytes_le d))
  rw [← prependDescriptor_encoded] at hreceive
  refine ⟨_, _, _, _, hsend, rfl, rfl, hreceive, rfl, rfl, rfl, ?_⟩
  rw [prependDescriptor_encoded, partitionBytes]
  dsimp only
  rw [toNat_ofNat_length, List.drop_left]

/-- Settles O22: the window's DescLen is 2 and its normalised bytes are byte 0 alone. -/
theorem emptyExtensionByteAccepted : Obligations.EmptyExtensionByteAccepted := by
  unfold Obligations.EmptyExtensionByteAccepted
  intro s len w hlen hx hflags hstrict
  have hX : wireX w = true := hx
  obtain ⟨h7, h6, h5, h4⟩ := (highNibble_eq_zero_iff _).mp hflags
  have hi : wireI w = false := by rw [wireI, h7, Bool.and_false]
  have hl : wireL w = false := by rw [wireL, h6, Bool.and_false]
  have ht : wireT w = false := by rw [wireT, h5, Bool.and_false]
  have hk : wireK w = false := by rw [wireK, h4, Bool.and_false]
  have htwo : wireLen w = 2 := by
    rw [wireLen_of_wireX hX, wireOffTk, wirePictureIdWidth, hi, hl, ht, hk, Bool.toNat_false, Nat.zero_mul]
    rfl
  have hres : reservedBitSeen s.cfg.strict len w = false :=
    reservedBitSeen_eq_false fun hs => ⟨(hstrict hs).1, fun _ => by rw [(hstrict hs).2]; rfl⟩
  have hbytes : descriptorBytes (wireDescriptor w) = [w[0] &&& 0x3F] := by
    rw [descriptorBytes_wireDescriptor, normalizedBytes, hi, hl, ht, hk]
    rfl
  refine ⟨_, _, _, _, exec_pdDec_whole hres (htwo.trans_le hlen), rfl, rfl, by rw [htwo]; rfl, hX,
    exec_pdEnc_of_fits (fieldOutOfRange_of_fieldsFit (wireDescriptor_fieldsFit w)), rfl, rfl, ?_, ?_⟩
  · dsimp only
    rw [hbytes]
    rfl
  · dsimp only
    rw [hbytes]
    rfl

end Sys2Proof.Machine
end

