-- ==== Sys2Proof/Proofs/SequenceNumbers.lean ====
section
/-! SUPPORT. What SEQ.NEXT answers, by the value of `ref_cseq` plus the difference (spec/42_sequence_tracker.md R160 to
R166), the numbering of a forward stream by induction on its steps (R167), and the proofs of O41 to O53. -/

namespace Sys2Proof.Machine

/-! ### The outcomes of a later call -/

section
variable {s t : State} {raw : Half} {r : Response}

/-- On an initialized tracker, accepting a number writes the reference and the response (R163). -/
theorem acceptSequence_of_initialized (hinit : s.initialized = true) (e : Word) :
    s.acceptSequence e = { s with refCseq := e, resp := some { status := .ok, ext := e } } := by
  rw [hinit]
  rfl

/-- A u32 sum is accepted (R162, R163). -/
theorem exec_seqNext_of_sum (hinit : s.initialized = true) (lo : 0 ≤ (s.refCseq.toNat : Int) + seqDelta s.refCseq raw)
    (hi : (s.refCseq.toNat : Int) + seqDelta s.refCseq raw ≤ 0xFFFFFFFF) :
    exec (.seqNext raw) s = .next { s with
      refCseq := BitVec.ofInt 32 ((s.refCseq.toNat : Int) + seqDelta s.refCseq raw)
      resp := some { status := .ok, ext := BitVec.ofInt 32 ((s.refCseq.toNat : Int) + seqDelta s.refCseq raw) } } := by
  obtain ⟨e, he, hexec⟩ := exec_seqNext_of_sum_inRange hinit lo hi
  rw [hexec, acceptSequence_of_initialized hinit, ← he, BitVec.ofInt_natCast, BitVec.ofNat_toNat, BitVec.setWidth_eq]

/-- A sum below 0 is an underflow (R164). -/
theorem exec_seqNext_underflow (hinit : s.initialized = true)
    (h : (s.refCseq.toNat : Int) + seqDelta s.refCseq raw < 0) :
    exec (.seqNext raw) s = .next (s.raise .invalidPayloadDescriptor .seqUnderflow) := by
  obtain ⟨hfirst, -⟩ | ⟨-, e, he, -⟩ | ⟨-, -, hexec⟩ | ⟨-, hover, -⟩ := exec_seqNext_cases raw s
  · exact absurd (hfirst.symm.trans hinit) Bool.false_ne_true
  · omega
  · exact hexec
  · omega

/-- A sum above the u32 range is an overflow (R164). -/
theorem exec_seqNext_overflow (hinit : s.initialized = true)
    (h : 0xFFFFFFFF < (s.refCseq.toNat : Int) + seqDelta s.refCseq raw) :
    exec (.seqNext raw) s = .next (s.raise .invalidPayloadDescriptor .seqOverflow) := by
  obtain ⟨hfirst, -⟩ | ⟨-, e, he, -⟩ | ⟨-, hunder, -⟩ | ⟨-, -, hexec⟩ := exec_seqNext_cases raw s
  · exact absurd (hfirst.symm.trans hinit) Bool.false_ne_true
  · have := e.isLt
    omega
  · omega
  · exact hexec

/-- All that an OK answer says (R161, R163). -/
theorem exec_seqNext_answered (h : exec (.seqNext raw) s = .next t) (hresp : t.resp = some r) (hok : r.status = .ok) :
    t = s.acceptSequence r.ext ∧
      ((s.initialized = false ∧ r.ext = raw.setWidth 32) ∨
        (s.initialized = true ∧ (r.ext.toNat : Int) = (s.refCseq.toNat : Int) + seqDelta s.refCseq raw)) := by
  obtain ⟨hfirst, hexec⟩ | ⟨hinit, e, he, hexec⟩ | ⟨-, -, hexec⟩ | ⟨-, -, hexec⟩ := exec_seqNext_cases raw s
  · cases hexec.symm.trans h
    cases hresp
    exact ⟨rfl, .inl ⟨hfirst, rfl⟩⟩
  · cases hexec.symm.trans h
    cases hresp
    exact ⟨rfl, .inr ⟨hinit, he⟩⟩
  all_goals
    cases hexec.symm.trans h
    cases hresp
    cases hok

/-- A duplicate has no difference (R168). -/
theorem seqDelta_self (ref : Word) : seqDelta ref (ref.setWidth 16) = 0 := by
  rw [seqDelta_eq_toInt, BitVec.sub_self]
  rfl

/-- The difference carries the residue of the raw number into the sum (R166). -/
theorem setWidth_eq_of_sum {ref e : Word} (h : (e.toNat : Int) = (ref.toNat : Int) + seqDelta ref raw) :
    e.setWidth 16 = raw := by
  have hres := seqDelta_congruent ref raw
  have hraw := raw.isLt
  apply BitVec.eq_of_toNat_eq
  rw [BitVec.toNat_setWidth]
  omega

end

/-! ### A forward stream -/

/-- The command of the next packet of a stream that stands at `n` in its exact numbering. -/
def streamCommand (n : Nat) : Command := encode (.seqNext (BitVec.ofNat 16 n))

/-- The commands of a stream that stands at `n` and advances by `steps` (R167). -/
def streamCommands (n : Nat) (steps : List Nat) : List Command :=
  (List.range (steps.length + 1)).map fun k => streamCommand (n + (steps.take k).sum)

theorem streamCommands_cons (n d : Nat) (steps : List Nat) :
    streamCommands n (d :: steps) = streamCommand n :: streamCommands (n + d) steps := by
  simp only [streamCommands, List.length_cons, List.range_succ_eq_map (n := steps.length + 1), List.map_cons,
    List.map_map, List.take_zero, List.sum_nil, Nat.add_zero, Function.comp_def, List.take_succ_cons, List.sum_cons,
    Nat.add_assoc]

theorem streamCommands_head (n : Nat) (steps : List Nat) :
    ∃ rest, streamCommands n steps = streamCommand n :: rest := by
  cases steps with
  | nil => exact ⟨[], rfl⟩
  | cons d steps => exact ⟨_, streamCommands_cons n d steps⟩

/-- The tracker takes the number `n` next: it is a first call, or `n` lies at most 32767 past the reference. -/
def TakesNext (s : State) (n : Nat) : Prop :=
  (s.initialized = false ∧ n < 65536) ∨
    (s.initialized = true ∧ s.refCseq.toNat ≤ n ∧ n ≤ s.refCseq.toNat + 32767)

theorem exec_seqNext_takesNext {s : State} {n : Nat} (h : TakesNext s n) (hn : n ≤ 0xFFFFFFFF) :
    exec (.seqNext (BitVec.ofNat 16 n)) s = .next (s.acceptSequence (BitVec.ofNat 32 n)) := by
  obtain ⟨hfirst, hsmall⟩ | ⟨hinit, lo, hi⟩ := h
  · have hraw : (BitVec.ofNat 16 n).setWidth 32 = BitVec.ofNat 32 n := by
      apply BitVec.eq_of_toNat_eq
      rw [BitVec.toNat_setWidth, BitVec.toNat_ofNat, BitVec.toNat_ofNat]
      omega
    rw [exec_seqNext_first hfirst, hraw]
  · have hdelta : seqDelta s.refCseq (BitVec.ofNat 16 n) = (n : Int) - s.refCseq.toNat := by
      refine seqDelta_unique _ _ (by omega) (by omega) ?_
      rw [BitVec.toNat_ofNat]
      omega
    rw [exec_seqNext_of_sum hinit (by omega) (by omega), acceptSequence_of_initialized hinit, hdelta,
      add_sub_cancel, BitVec.ofInt_natCast]

theorem takesNext_acceptSequence {s : State} {n d : Nat} (hn : n ≤ 0xFFFFFFFF) (hd : d ≤ 32767) :
    TakesNext (s.acceptSequence (BitVec.ofNat 32 n)) (n + d) := by
  have href : (BitVec.ofNat 32 n).toNat = n := by rw [BitVec.toNat_ofNat, Nat.mod_eq_of_lt (by omega)]
  exact .inr ⟨rfl, by simp only [State.acceptSequence_refCseq, href]; omega⟩

/-- One packet of a stream (R161, R163). -/
theorem step_streamCommand {s : State} {n : Nat} {rest : List Command} (h : TakesNext s n) (hn : n ≤ 0xFFFFFFFF)
    (hinbox : s.inbox = streamCommand n :: rest) :
    step s = .next ((s.withProgram rest).acceptSequence (BitVec.ofNat 32 n)) :=
  (step_of_decode_ok hinbox (decode_encode _)).trans (exec_seqNext_takesNext (s := s.withProgram rest) h hn)

/-- The k-th command of a stream is answered with the exact number (R167). -/
theorem run_streamCommands {steps : List Nat} {k : Nat} (hk : k ≤ steps.length) {s : State} {n : Nat}
    (hnext : TakesNext s n) (hsteps : ∀ d ∈ steps, d ≤ 32767) (hmax : n + steps.sum ≤ 0xFFFFFFFF)
    (hinbox : s.inbox = streamCommands n steps) :
    ∃ t : State, Sys2Proof.core.run (k + 1) s = .next t ∧
      t.resp = some { status := .ok, ext := BitVec.ofNat 32 (n + (steps.take k).sum) } := by
  have hn : n ≤ 0xFFFFFFFF := (Nat.le_add_right _ _).trans hmax
  induction k generalizing steps s n with
  | zero =>
    obtain ⟨rest, hrest⟩ := streamCommands_head n steps
    exact ⟨_, run_succ 0 (step_streamCommand hnext hn (hinbox.trans hrest)), rfl⟩
  | succ k ih =>
    cases steps with
    | nil => exact absurd hk (Nat.not_succ_le_zero k)
    | cons d steps =>
      rw [List.sum_cons, ← Nat.add_assoc] at hmax
      have hstep := step_streamCommand hnext hn (hinbox.trans (streamCommands_cons n d steps))
      have hd : d ≤ 32767 := hsteps d List.mem_cons_self
      have hnext' := takesNext_acceptSequence (s := s.withProgram (streamCommands (n + d) steps)) hn hd
      obtain ⟨t, hrun, hresp⟩ := ih (Nat.le_of_succ_le_succ hk) hnext'
        (fun e he => hsteps e (List.mem_cons_of_mem d he)) hmax rfl ((Nat.le_add_right _ _).trans hmax)
      refine ⟨t, (run_succ (k + 1) hstep).trans hrun, ?_⟩
      rw [hresp, List.take_succ_cons, List.sum_cons, Nat.add_assoc]

/-! ### The obligations -/

/-- Settles O41: `seqDelta` is the 16-bit difference, and its sum is accepted. -/
theorem sequenceNumberIsExtended : Obligations.SequenceNumberIsExtended := by
  unfold Obligations.SequenceNumberIsExtended
  intro s raw hinit lo hi
  rw [← seqDelta_eq_toInt] at lo hi ⊢
  exact exec_seqNext_of_sum hinit lo hi

/-- Settles O42: the two range exits. -/
theorem sequenceRangeExitsAreRejected : Obligations.SequenceRangeExitsAreRejected := by
  unfold Obligations.SequenceRangeExitsAreRejected
  intro s raw hinit
  rw [← seqDelta_eq_toInt]
  exact ⟨exec_seqNext_underflow hinit, exec_seqNext_overflow hinit⟩

/-- Settles O43: 0x8000 is -32768, whose sum is accepted or an underflow. -/
theorem sequenceTieGoesBackward : Obligations.SequenceTieGoesBackward := by
  unfold Obligations.SequenceTieGoesBackward
  intro s raw hinit htie
  have hdelta : seqDelta s.refCseq raw = -32768 := by
    rw [seqDelta_eq_toInt, htie]
    rfl
  have hmax := s.refCseq.isLt
  constructor
  · intro hback
    have hsum : BitVec.ofInt 32 ((s.refCseq.toNat : Int) + -32768) = s.refCseq - 32768 := by
      rw [BitVec.ofInt_add, BitVec.ofInt_natCast, BitVec.ofNat_toNat, BitVec.setWidth_eq, BitVec.sub_eq_add_neg]
      rfl
    rw [exec_seqNext_of_sum hinit (by omega) (by omega), hdelta, hsum]
  · intro hback
    exact exec_seqNext_underflow hinit (by omega)

/-- Settles O44: the first number is the raw number, and every sum keeps its residue. -/
theorem extendedNumberKeepsRawNumber : Obligations.ExtendedNumberKeepsRawNumber := by
  unfold Obligations.ExtendedNumberKeepsRawNumber
  intro s t raw r h hresp hok
  obtain ⟨-, ⟨-, hext⟩ | ⟨-, hext⟩⟩ := exec_seqNext_answered h hresp hok
  · rw [hext, BitVec.setWidth_setWidth_of_le _ (by decide), BitVec.setWidth_eq]
  · exact setWidth_eq_of_sum hext

/-- Settles O45: the stream of the obligation stands at its first raw number before a first call. -/
theorem forwardStreamIsNumberedExactly : Obligations.ForwardStreamIsNumberedExactly := by
  unfold Obligations.ForwardStreamIsNumberedExactly
  intro s raw steps hfirst hsteps hmax hinbox k hk
  have hcommands : s.inbox = streamCommands raw.toNat steps := by
    rw [hinbox]
    simp only [streamCommands, streamCommand, BitVec.ofNat_add, BitVec.ofNat_toNat, BitVec.setWidth_eq]
  obtain ⟨t, hrun, hresp⟩ :=
    run_streamCommands hk (.inl ⟨hfirst, raw.isLt⟩) (fun d hd => (hsteps d hd).2) hmax hcommands
  have hsum := List.sum_take_add_sum_drop steps k
  exact ⟨t, _, hrun, hresp, rfl, (BitVec.toNat_ofNat _ _).trans (Nat.mod_eq_of_lt (by omega))⟩

/-- Settles O46: the difference is 0. -/
theorem duplicateReturnsReference : Obligations.DuplicateReturnsReference := by
  unfold Obligations.DuplicateReturnsReference
  intro s hinit
  have hmax := s.refCseq.isLt
  have hdelta := seqDelta_self s.refCseq
  rw [exec_seqNext_of_sum hinit (by omega) (by omega), hdelta, add_zero, BitVec.ofInt_natCast, BitVec.ofNat_toNat,
    BitVec.setWidth_eq]

/-- Settles O47: the sum with a negative difference lies below the reference, which becomes the sum. -/
theorem backwardPacketMovesReferenceBack : Obligations.BackwardPacketMovesReferenceBack := by
  unfold Obligations.BackwardPacketMovesReferenceBack
  intro s t raw r hinit hback h hresp hok
  rw [← seqDelta_eq_toInt] at hback
  obtain ⟨rfl, ⟨hfirst, -⟩ | ⟨-, hext⟩⟩ := exec_seqNext_answered h hresp hok
  · exact absurd (hfirst.symm.trans hinit) Bool.false_ne_true
  · exact ⟨BitVec.lt_def.mpr (by omega), rfl⟩

/-- Settles O48: the difference is the displacement less or plus 65536, or 0. -/
theorem farDisplacementAliases : Obligations.FarDisplacementAliases := by
  unfold Obligations.FarDisplacementAliases
  intro s raw displacement hinit hraw
  have hmax := s.refCseq.isLt
  refine ⟨fun lo hi hsum => ?_, fun lo hi hsum => ?_, fun hmul => ?_⟩
  · have hdelta : seqDelta s.refCseq raw = displacement - 65536 :=
      seqDelta_unique _ _ (by omega) (by omega) (by omega)
    rw [exec_seqNext_of_sum hinit (by omega) (by omega), hdelta, ← add_sub_assoc]
  · have hdelta : seqDelta s.refCseq raw = displacement + 65536 :=
      seqDelta_unique _ _ (by omega) (by omega) (by omega)
    rw [exec_seqNext_of_sum hinit (by omega) (by omega), hdelta, ← add_assoc]
  · have hdelta : seqDelta s.refCseq raw = 0 := seqDelta_unique _ _ (by omega) (by omega) (by omega)
    rw [exec_seqNext_of_sum hinit (by omega) (by omega), hdelta, add_zero, BitVec.ofInt_natCast, BitVec.ofNat_toNat,
      BitVec.setWidth_eq]

/-- Settles O49: the meaning of SEQ.RESET as one update. -/
theorem sequenceResetClearsTracker : Obligations.SequenceResetClearsTracker := by
  unfold Obligations.SequenceResetClearsTracker
  exact exec_seqReset

/-- Settles O50: the state after a reset is uninitialized, and keeps nothing that the next command writes. -/
theorem sequenceResetRestartsStream : Obligations.SequenceResetRestartsStream := by
  unfold Obligations.SequenceResetRestartsStream
  intro s t raw h
  cases (exec_seqReset s).symm.trans h
  exact ⟨exec_seqReset _, exec_seqNext_first rfl⟩

/-- Settles O51: the codec does not read the tracker, and a first call or a reset overwrites it. -/
theorem uninitializedReferenceIsNeverRead : Obligations.UninitializedReferenceIsNeverRead := by
  unfold Obligations.UninitializedReferenceIsNeverRead
  constructor
  · intro s t t' ref i hfirst h h'
    cases i with
    | pdDec len w =>
      cases (exec_pdDec_eq_respond len w s).symm.trans h
      cases (exec_pdDec_eq_respond len w { s with refCseq := ref }).symm.trans h'
      exact ⟨rfl, rfl⟩
    | pdEnc d =>
      cases (exec_pdEnc_eq_respond d s).symm.trans h
      cases (exec_pdEnc_eq_respond d { s with refCseq := ref }).symm.trans h'
      exact ⟨rfl, rfl⟩
    | seqNext raw =>
      cases (exec_seqNext_first hfirst).symm.trans h
      cases (exec_seqNext_first (s := { s with refCseq := ref }) hfirst).symm.trans h'
      exact ⟨rfl, rfl⟩
    | seqReset =>
      cases (exec_seqReset s).symm.trans h
      cases (exec_seqReset { s with refCseq := ref }).symm.trans h'
      exact ⟨rfl, rfl⟩
  · intro s ref raw hfirst
    exact ⟨(exec_seqNext_first (s := { s with refCseq := ref }) hfirst).trans (exec_seqNext_first hfirst).symm, rfl⟩

/-- Settles O52: the branch taken and the number accepted depend on the tracker and the raw number. -/
theorem trackerIgnoresDescriptors : Obligations.TrackerIgnoresDescriptors := by
  unfold Obligations.TrackerIgnoresDescriptors
  intro s s' t t' raw href hinit h h'
  cases hb : s.initialized with
  | false =>
    cases (exec_seqNext_first hb).symm.trans h
    cases (exec_seqNext_first (hinit.symm.trans hb)).symm.trans h'
    exact ⟨rfl, rfl, rfl⟩
  | true =>
    have hb' := hinit.symm.trans hb
    cases he : extendSequence s.refCseq raw with
    | ok e =>
      cases (exec_seqNext_ok hb he).symm.trans h
      cases (exec_seqNext_ok hb' (href ▸ he)).symm.trans h'
      exact ⟨rfl, rfl, rfl⟩
    | error e =>
      cases (exec_seqNext_error hb he).symm.trans h
      cases (exec_seqNext_error hb' (href ▸ he)).symm.trans h'
      exact ⟨href.symm, hinit.symm, rfl⟩

/-- Settles O53: an OK answer accepts the number it returns. -/
theorem referenceIsTheLastReturnedNumber : Obligations.ReferenceIsTheLastReturnedNumber := by
  unfold Obligations.ReferenceIsTheLastReturnedNumber
  intro s t raw r h hresp hok
  obtain ⟨rfl, -⟩ := exec_seqNext_answered h hresp hok
  exact ⟨rfl, rfl⟩

end Sys2Proof.Machine
end

