-- ==== Sys2Proof/Proofs/MachineInvariant.lean ====
section
/-! SUPPORT. The legal responses of each command, the invariant that every step keeps, and what an error leaves alone
(spec/10_state.md R20, R25; spec/60_exceptions.md R201, R202; spec/70_reset_and_hazards.md R240, R247): the proofs of
O57, O58, O55, O56, O59, O1 and O54. -/

namespace Sys2Proof.Machine

/-! ### Legal responses -/

/-- A status and reason that go together, with no data (R201, R202). -/
theorem legal_of_legalOutcome {a : Status} {b : Reason} (h : legalOutcome a b = true) :
    ({ status := a, reason := b } : Response).legal = true := by
  have hdata : ({ status := a, reason := b } : Response).dataDefault = true := rfl
  rw [Response.legal, h, hdata, Bool.or_true]
  rfl

/-- Any u32 may be an extended sequence number (R25). -/
theorem legal_of_ext (e : Word) : ({ status := .ok, ext := e } : Response).legal = true := rfl

/-- A Descriptor in range with a length of at most 6 (R111). -/
theorem legal_of_desc {d : Descriptor} {n : Nat} (hfit : d.fieldsFit = true) (hn : n ≤ 6) :
    ({ status := .ok, desc := d, consumed := BitVec.ofNat 3 n } : Response).legal = true := by
  have hlen : BitVec.ofNat 3 n ≤ 6 := by
    rw [BitVec.le_def, BitVec.toNat_ofNat]
    exact (Nat.mod_le _ _).trans hn
  rw [Response.legal, hfit, decide_eq_true hlen]
  rfl

/-- The bytes of an encoded descriptor, padded (R43). -/
theorem legal_of_encoded (d : Descriptor) :
    ({ status := .ok, out := windowOf (descriptorBytes d),
       outLen := BitVec.ofNat 3 (descriptorBytes d).length } : Response).legal = true := by
  have hlen : BitVec.ofNat 3 (descriptorBytes d).length ≤ 6 := by
    rw [BitVec.le_def, toNat_ofNat_length]
    exact length_descriptorBytes_le d
  have hpad : ({ status := .ok, out := windowOf (descriptorBytes d),
                 outLen := BitVec.ofNat 3 (descriptorBytes d).length } : Response).outPadded = true := by
    rw [Response.outPadded, List.all_eq_true]
    intro i _
    rw [Bool.or_eq_true, decide_eq_true_eq, beq_iff_eq, toNat_ofNat_length]
    exact (Nat.lt_or_ge i _).imp_right byteAt_windowOf_of_length_le
  rw [Response.legal, hpad, decide_eq_true hlen]
  rfl

theorem legal_decodeResponse (strict : Bool) (len : Nat) (w : Window) :
    (decodeResponse strict len w).legal = true := by
  rw [decodeResponse, decodeDescriptor_eq_wire]
  split_ifs
  · exact legal_of_legalOutcome rfl
  · exact legal_of_desc (wireDescriptor_fieldsFit w) (wireLen_le_six w)
  · exact legal_of_legalOutcome rfl

theorem legal_encodeResponse (d : Descriptor) : (encodeResponse d).legal = true := by
  rw [encodeResponse, encodeDescriptor_eq_cursorOf]
  split_ifs
  · exact legal_of_legalOutcome rfl
  · exact legal_of_encoded d

/-! ### What one instruction does to the invariant and on an error -/

section
variable {i : Instr} {s t : State}

/-- A state whose reference is 0 until the first SEQ.NEXT comes to one that meets the whole invariant, because the
instruction puts a legal response in the place of the old one. -/
theorem exec_inv (href : s.initialized = false → s.refCseq = 0) (h : exec i s = .next t) : t.Inv := by
  cases i with
  | pdDec len w =>
    cases (exec_pdDec_eq_respond len w s).symm.trans h
    exact ⟨href, fun r hr => Option.some.inj hr ▸ legal_decodeResponse _ _ _⟩
  | pdEnc d =>
    cases (exec_pdEnc_eq_respond d s).symm.trans h
    exact ⟨href, fun r hr => Option.some.inj hr ▸ legal_encodeResponse _⟩
  | seqNext raw =>
    obtain ⟨-, hexec⟩ | ⟨-, e, -, hexec⟩ | ⟨-, -, hexec⟩ | ⟨-, -, hexec⟩ := exec_seqNext_cases raw s
    · cases hexec.symm.trans h
      exact ⟨fun hinit => (Bool.false_ne_true hinit.symm).elim, fun r hr => Option.some.inj hr ▸ legal_of_ext _⟩
    · cases hexec.symm.trans h
      exact ⟨fun hinit => (Bool.false_ne_true hinit.symm).elim, fun r hr => Option.some.inj hr ▸ legal_of_ext _⟩
    · cases hexec.symm.trans h
      exact ⟨href, fun r hr => Option.some.inj hr ▸ legal_of_legalOutcome rfl⟩
    · cases hexec.symm.trans h
      exact ⟨href, fun r hr => Option.some.inj hr ▸ legal_of_legalOutcome rfl⟩
  | seqReset =>
    cases (exec_seqReset s).symm.trans h
    exact ⟨fun _ => rfl, fun r hr => Option.some.inj hr ▸ legal_of_legalOutcome rfl⟩

/-- Whatever an instruction does, it answers OK or it is `State.raise` (R11, R202). -/
theorem exec_ok_or_raise (i : Instr) (s : State) :
    (∃ t r, exec i s = .next t ∧ t.resp = some r ∧ r.status = .ok) ∨
      ∃ a b, exec i s = .next (s.raise a b) := by
  cases i with
  | pdDec len w =>
    obtain ⟨d, n, -, hexec⟩ | ⟨e, -, hexec⟩ := exec_pdDec_cases len w s
    · exact .inl ⟨_, _, hexec, rfl, rfl⟩
    · exact .inr ⟨_, _, hexec⟩
  | pdEnc d =>
    obtain ⟨out, n, -, hexec⟩ | ⟨e, -, hexec⟩ := exec_pdEnc_cases d s
    · exact .inl ⟨_, _, hexec, rfl, rfl⟩
    · exact .inr ⟨_, _, hexec⟩
  | seqNext raw =>
    obtain ⟨-, hexec⟩ | ⟨-, e, -, hexec⟩ | ⟨-, -, hexec⟩ | ⟨-, -, hexec⟩ := exec_seqNext_cases raw s
    · exact .inl ⟨_, _, hexec, rfl, rfl⟩
    · exact .inl ⟨_, _, hexec, rfl, rfl⟩
    · exact .inr ⟨_, _, hexec⟩
    · exact .inr ⟨_, _, hexec⟩
  | seqReset => exact .inl ⟨_, _, exec_seqReset s, rfl, rfl⟩

/-- An instruction that does not answer OK leaves a status and a reason, and nothing else (R202). -/
theorem exec_eq_raise_of_not_ok {r : Response} (h : exec i s = .next t) (hresp : t.resp = some r)
    (hok : r.status ≠ .ok) : t = s.raise r.status r.reason := by
  obtain ⟨u, q, hexec, hq, hqok⟩ | ⟨a, b, hexec⟩ := exec_ok_or_raise i s
  · cases hexec.symm.trans h
    cases hq.symm.trans hresp
    exact absurd hqok hok
  · cases hexec.symm.trans h
    cases hresp
    rfl

/-- The codec writes no tracker field, and no error does (R20, R21). -/
theorem exec_tracker_change (h : exec i s = .next t)
    (hne : t.refCseq ≠ s.refCseq ∨ t.initialized ≠ s.initialized) :
    ((∃ raw, i = .seqNext raw) ∨ i = .seqReset) ∧ ∃ r, t.resp = some r ∧ r.status = .ok := by
  have hkept : ¬ (t.refCseq = s.refCseq ∧ t.initialized = s.initialized) := fun ⟨href, hinit⟩ =>
    hne.elim (· href) (· hinit)
  constructor
  · cases i with
    | pdDec len w =>
      cases (exec_pdDec_eq_respond len w s).symm.trans h
      exact absurd ⟨rfl, rfl⟩ hkept
    | pdEnc d =>
      cases (exec_pdEnc_eq_respond d s).symm.trans h
      exact absurd ⟨rfl, rfl⟩ hkept
    | seqNext raw => exact .inl ⟨raw, rfl⟩
    | seqReset => exact .inr rfl
  · obtain ⟨u, q, hexec, hq, hqok⟩ | ⟨a, b, hexec⟩ := exec_ok_or_raise i s
    · cases hexec.symm.trans h
      exact ⟨q, hq, hqok⟩
    · cases hexec.symm.trans h
      exact absurd ⟨rfl, rfl⟩ hkept

end

/-! ### The obligations -/

/-- Settles O57: an idle step keeps the state, an instruction keeps the invariant, and a reserved op raises a legal
outcome. -/
theorem stepKeepsInvariant : Obligations.StepKeepsInvariant := by
  unfold Obligations.StepKeepsInvariant
  rintro s t ⟨href, hlegal⟩ h
  obtain ⟨-, hidle⟩ | ⟨c, rest, i, -, -, hexec⟩ | ⟨c, rest, e, -, -, herror⟩ := step_cases s
  · cases hidle.symm.trans h
    exact ⟨href, hlegal⟩
  · exact exec_inv (s := { s with inbox := rest }) href (hexec.symm.trans h)
  · cases herror.symm.trans h
    exact ⟨href, fun r hr => Option.some.inj hr ▸ legal_of_legalOutcome rfl⟩

/-- Settles O58: the reference is 0, and no response stands on the port. -/
theorem resetMeetsInvariant : Obligations.ResetMeetsInvariant := by
  unfold Obligations.ResetMeetsInvariant
  exact ⟨fun _ => rfl, fun r hr => by cases hr⟩

/-- Settles O55: an instruction that fails, and a reserved op, are `State.raise`. -/
theorem errorsHaveNoOtherEffect : Obligations.ErrorsHaveNoOtherEffect := by
  unfold Obligations.ErrorsHaveNoOtherEffect
  intro s t c rest r hs h hresp hok
  cases hd : decode c with
  | ok i => exact exec_eq_raise_of_not_ok (s := s.withProgram rest) ((step_of_decode_ok hs hd).symm.trans h) hresp hok
  | error e =>
    cases (step_of_decode_error hs hd).symm.trans h
    cases hresp
    rfl

/-- Settles O56: an idle step and a reserved op keep the tracker, and of the instructions two change it. -/
theorem onlyTrackerCommandsChangeTheTracker : Obligations.OnlyTrackerCommandsChangeTheTracker := by
  unfold Obligations.OnlyTrackerCommandsChangeTheTracker
  intro s t h hne
  obtain ⟨-, hidle⟩ | ⟨c, rest, i, hs, hd, hexec⟩ | ⟨c, rest, e, -, -, herror⟩ := step_cases s
  · cases hidle.symm.trans h
    exact (hne.elim (· rfl) (· rfl)).elim
  · obtain ⟨hi, r, hresp, hok⟩ := exec_tracker_change (s := { s with inbox := rest }) (hexec.symm.trans h) hne
    exact ⟨c, rest, r, hs, hi.imp (fun ⟨raw, hraw⟩ => ⟨raw, by rw [hd, hraw]⟩) fun hreset => by rw [hd, hreset],
      hresp, hok⟩
  · cases herror.symm.trans h
    exact (hne.elim (· rfl) (· rfl)).elim

/-- Settles O59: PD.DEC leaves only a response, which SEQ.NEXT does not read. -/
theorem trackerSeesEveryPacket : Obligations.TrackerSeesEveryPacket := by
  unfold Obligations.TrackerSeesEveryPacket
  intro s payload raw later hs
  have hdecode : step s = .next ((s.withProgram (encode (.seqNext raw) :: later)).respond
      (decodeResponse s.cfg.strict payload.length (windowOf payload))) :=
    (step_of_decode_ok hs (decode_encode _)).trans (exec_pdDec_eq_respond _ _ _)
  have hrun : Sys2Proof.core.run 1 s = .next _ := run_succ 0 hdecode
  rw [run_succ_eq_step hrun, step_of_decode_ok rfl (decode_encode _)]
  exact exec_respond (.seqNext raw) (s.withProgram later) _

/-- Settles O1: the fields of the state after reset. -/
theorem resetStateIsInitial : Obligations.ResetStateIsInitial := by
  unfold Obligations.ResetStateIsInitial
  exact ⟨rfl, rfl, rfl, rfl⟩

/-- Settles O54: the two code tables, entry by entry. -/
theorem statusAndReasonCodes : Obligations.StatusAndReasonCodes := by
  unfold Obligations.StatusAndReasonCodes
  exact ⟨rfl, rfl, rfl, rfl, rfl, rfl, rfl, rfl, rfl, rfl⟩

end Sys2Proof.Machine
end
